-- ==== Sys2Proof/Word.lean ====
section
/-! DEFINITION. The word types of BSDE-1 (spec/00_scope.md R9, R10): an accumulator word, a command word and a
response word are 32 bits, a digit is 4 bits. -/

namespace Sys2Proof

/-- A 32-bit word: an accumulator word, a command word or a response word (R21, R53, R80). -/
abbrev Word := BitVec 32

/-- A 4-bit digit value (R26, R29, R30). -/
abbrev Digit := BitVec 4

end Sys2Proof
end

