-- ==== Sys2Proof/Syntax.lean ====
section
/-! DEFINITION. The commands of BSDE-1: one constructor for each row of spec/opcode_table.json (spec/30_encoding.md
R85), operands as the numbers the spec's pseudocode uses (R83, R84). -/

namespace Sys2Proof

/-- A command. An ILLEGAL word is no command: `decode` rejects it by name and the step raises ILL for it (R86). -/
inductive Instr where
  /-- NOP: report STATUS (R120). -/
  | nop
  /-- CLR: zero-initialise the block (R121). -/
  | clr
  /-- SETBIT pos: set the accumulator bit of a signed biased position (R122). -/
  | setbit (pos : Int)
  /-- FMUL10: one fraction pass (R130). -/
  | fmul10
  /-- IDIV10: one integer pass (R131). -/
  | idiv10
  /-- FRUN: fraction passes until the fraction view is zero (R132). -/
  | frun
  /-- IRUN: integer passes until the integer view is zero (R133). -/
  | irun
  /-- RDW k: read accumulator word k (R150). -/
  | rdw (k : Nat)
  /-- RDFD k: read fractional digit k (R151). -/
  | rdfd (k : Nat)
  /-- RDID k: read the integer digit of weight 10^k (R152). -/
  | rdid (k : Nat)
deriving DecidableEq, Repr

end Sys2Proof
end

