-- ==== Sys2Proof/WellFormed.lean ====
section
/-! DEFINITION. Which commands have an encoding: the operand ranges of spec/30_encoding.md R83, R84 and R91. The
legal positions and indexes of a command are checked at execution, not here (R83, R84). -/

namespace Sys2Proof

/-- A SETBIT position is a 16-bit two's complement number: -32768 ≤ pos ≤ 32767 (R83, R91). -/
def positionEncodable (pos : Int) : Bool := decide (-32768 ≤ pos ∧ pos ≤ 32767)

/-- An index is an unsigned 8-bit number: 0 ≤ k ≤ 255 (R84, R91). -/
def indexEncodable (k : Nat) : Bool := decide (k ≤ 255)

/-- The command has an encoding (R91). -/
def Instr.wellFormed : Instr → Bool
  | .nop => true
  | .clr => true
  | .setbit pos => positionEncodable pos
  | .fmul10 => true
  | .idiv10 => true
  | .frun => true
  | .irun => true
  | .rdw k => indexEncodable k
  | .rdfd k => indexEncodable k
  | .rdid k => indexEncodable k

end Sys2Proof
end

