-- ==== Sys2Proof/Decode.lean ====
section
/-! DEFINITION. The decoder, total on all 32-bit words and rejecting by name (spec/30_encoding.md R86), the opcode map
(R85), and the encoder (R82 to R84, R91). -/

namespace Sys2Proof

/-- v[hi:lo], the unsigned value of bits hi down to lo of v (R9). -/
def bits (v hi lo : Nat) : Nat := v / 2 ^ lo % 2 ^ (hi + 1 - lo)

/-- sext_n(v), the two's complement value of the unsigned n-bit field v (R10). -/
def sext (n v : Nat) : Int := if bits v (n - 1) (n - 1) = 1 then (v : Int) - 2 ^ n else v

/-- Why a word is ILLEGAL (R172). -/
inductive DecodeError where
  /-- OP is one of 0x7, 0xB to 0xF, whatever the other bits (R87). -/
  | reservedOp
  /-- OP is defined and a bit of its format's zero field is 1 (R88). -/
  | nonzeroField
deriving DecidableEq, Repr

/-- Format N: no operand, bits 27:0 must be 0 (R82, R88). -/
def decodeN (i : Instr) (w : Nat) : Except DecodeError Instr :=
  if bits w 27 0 = 0 then .ok i else .error .nonzeroField

/-- Format S: bits 27:16 must be 0, the operand is sext_16(w[15:0]) (R83, R88). -/
def decodeS (i : Int → Instr) (w : Nat) : Except DecodeError Instr :=
  if bits w 27 16 = 0 then .ok (i (sext 16 (bits w 15 0))) else .error .nonzeroField

/-- Format X: bits 27:8 must be 0, the operand is zext_8(w[7:0]) (R84, R88). -/
def decodeX (i : Nat → Instr) (w : Nat) : Except DecodeError Instr :=
  if bits w 27 8 = 0 then .ok (i (bits w 7 0)) else .error .nonzeroField

/-- Decode (R86). It looks at no state; OP, bits 31:28, alone selects the format and the command (R81). -/
def decode (w : Word) : Except DecodeError Instr :=
  match bits w.toNat 31 28 with
  | 0x0 => decodeN .nop w.toNat
  | 0x1 => decodeN .clr w.toNat
  | 0x2 => decodeS .setbit w.toNat
  | 0x3 => decodeN .fmul10 w.toNat
  | 0x4 => decodeN .idiv10 w.toNat
  | 0x5 => decodeN .frun w.toNat
  | 0x6 => decodeN .irun w.toNat
  | 0x8 => decodeX .rdw w.toNat
  | 0x9 => decodeX .rdfd w.toNat
  | 0xA => decodeX .rdid w.toNat
  | _ => .error .reservedOp

/-- The instruction the decoder reads from a word numbered as spec/opcode_table.json numbers it: bit 0 is the least
significant bit of the one word a command has (R80). A number that needs more than that one word is no command. -/
def decodeTableWord (nbits w : Nat) : Option Instr :=
  let word := w % 2 ^ nbits
  if word < 2 ^ 32 then
    match decode (BitVec.ofNat 32 word) with
    | .ok i => some i
    | .error _ => none
  else none

/-- The encoding of a command (R85, R91): the row's match word, with p mod 2^16 or k in the low bits. -/
def encode : Instr → Word
  | .nop => 0x00000000#32
  | .clr => 0x10000000#32
  | .setbit pos => 0x20000000#32 ||| BitVec.ofNat 32 (pos % 2 ^ 16).toNat
  | .fmul10 => 0x30000000#32
  | .idiv10 => 0x40000000#32
  | .frun => 0x50000000#32
  | .irun => 0x60000000#32
  | .rdw k => 0x80000000#32 ||| BitVec.ofNat 32 k
  | .rdfd k => 0x90000000#32 ||| BitVec.ofNat 32 k
  | .rdid k => 0xA0000000#32 ||| BitVec.ofNat 32 k

/-- A row of the opcode map (R85): its match word, its mask, and the command a matching word stands for. -/
structure OpcodeRow where
  matchWord : Word
  mask : Word
  command : Word → Instr

/-- The opcode map (R85), row by row in the order of spec/opcode_table.json. -/
def opcodeMap : List OpcodeRow :=
  [⟨0x00000000#32, 0xFFFFFFFF#32, fun _ => .nop⟩,
   ⟨0x10000000#32, 0xFFFFFFFF#32, fun _ => .clr⟩,
   ⟨0x20000000#32, 0xFFFF0000#32, fun w => .setbit (sext 16 (bits w.toNat 15 0))⟩,
   ⟨0x30000000#32, 0xFFFFFFFF#32, fun _ => .fmul10⟩,
   ⟨0x40000000#32, 0xFFFFFFFF#32, fun _ => .idiv10⟩,
   ⟨0x50000000#32, 0xFFFFFFFF#32, fun _ => .frun⟩,
   ⟨0x60000000#32, 0xFFFFFFFF#32, fun _ => .irun⟩,
   ⟨0x80000000#32, 0xFFFFFF00#32, fun w => .rdw (bits w.toNat 7 0)⟩,
   ⟨0x90000000#32, 0xFFFFFF00#32, fun w => .rdfd (bits w.toNat 7 0)⟩,
   ⟨0xA0000000#32, 0xFFFFFF00#32, fun w => .rdid (bits w.toNat 7 0)⟩]

/-- A word w selects a row's command iff (w AND mask) = match (R85). -/
def OpcodeRow.selects (r : OpcodeRow) (w : Word) : Bool := w &&& r.mask == r.matchWord

end Sys2Proof
end

