-- ==== Sys2Proof/Config.lean ====
section
/-! DEFINITION. What is fixed for the machine: the parameters of spec/00_scope.md R7, the open latency parameters of
R8, and the one free value of the spec, the word accepted from a host that breaks its hold duty (spec/20_memory.md
R69). -/

namespace Sys2Proof.Config

/-- NW, the number of accumulator words (R7). -/
abbrev nw : Nat := 9

/-- WB, the bits of one accumulator word (R7). -/
abbrev wb : Nat := 32

/-- FBITS, the weight exponent of the binary point (R7, C1). -/
abbrev fbits : Nat := 160

/-- OFFSET, added to a SETBIT position to give the absolute bit index (R7). -/
abbrev offset : Int := 33

/-- BIAS, the binary32 exponent bias (R7). -/
abbrev bias : Nat := 127

/-- MB, the binary32 mantissa field width (R7). -/
abbrev mb : Nat := 23

/-- POS_MIN, the smallest legal SETBIT position (R7, C2). -/
abbrev posMin : Int := -22

/-- POS_MAX, the largest legal SETBIT position (R7, C2). -/
abbrev posMax : Int := 254

/-- FCAP, the capacity of the fractional digit store (R7). -/
abbrev fcap : Nat := 149

/-- ICAP, the capacity of the integer digit store (R7). -/
abbrev icap : Nat := 39

/-- The part of LAT_SIMPLE above 1: open (R8), a constant without a value (log entry 9). -/
opaque latSimpleAboveOne : Nat

/-- The part of LAT_FPASS above 1: open (R8), a constant without a value (log entry 9). -/
opaque latFpassAboveOne : Nat

/-- The part of LAT_IPASS above 1: open (R8), a constant without a value (log entry 9). -/
opaque latIpassAboveOne : Nat

/-- LAT_SIMPLE, a positive number of cycles (R8, R209). -/
def latSimple : Nat := latSimpleAboveOne + 1

/-- LAT_FPASS, a positive number of cycles (R8, R209). -/
def latFpass : Nat := latFpassAboveOne + 1

/-- LAT_IPASS, a positive number of cycles (R8, R209). -/
def latIpass : Nat := latIpassAboveOne + 1

/-- FREE VALUE (log entry 6): the word the block accepts, at the n-th such draw, from a host that does not hold its
offer until acceptance. R69: "a model treats the accepted word as any 32-bit value (a draw)". -/
opaque undeterminedWord : Nat → Word

end Sys2Proof.Config
end

