-- ==== Sys2Proof/Machine/State.lean ====
section
/-! DEFINITION. The state of BSDE-1 (spec/10_state.md R20, R37, R42), the error codes (spec/60_exceptions.md R171), the
host's moves (spec/70_reset_and_hazards.md R212), and the state right after reset. -/

namespace Sys2Proof.Machine

/-- The architectural state: the tuple of R20, one field a row and no others. -/
structure Block where
  /-- W[0] to W[8], the accumulator, W[0] least significant (R21, R22). -/
  w : Vector Word 9
  /-- DIGIT, the digit of the last successful pass (R26). -/
  digit : Digit
  /-- FCNT, the number of fractional digits stored, 0 to 149 (R27). -/
  fcnt : BitVec 8
  /-- ICNT, the number of integer digits stored, 0 to 39 (R28). -/
  icnt : BitVec 6
  /-- FDIG[0] to FDIG[FCNT-1], most significant digit first. Entries at FCNT or above are unspecified and never
  observable, and R29 lets a model omit them (log entry 2). -/
  fdig : List Digit
  /-- IDIG[0] to IDIG[ICNT-1], entry k of weight 10^k. Entries at ICNT or above are omitted, as R30 allows (log
  entry 2). -/
  idig : List Digit
  /-- ERR, the sticky error flag (R32). -/
  err : Bool
  /-- ECODE, the code of the first error since the last clear (R33). -/
  ecode : BitVec 4
deriving DecidableEq, Repr

/-- Every field of R20 at its reset value (R42), which is also its value after CLR (R121, R205). -/
def Block.reset : Block where
  w := Vector.replicate 9 0#32
  digit := 0#4
  fcnt := 0#8
  icnt := 0#6
  fdig := []
  idig := []
  err := false
  ecode := 0#4

/-- The errors a command can raise (R171). NONE, code 0, is no error and codes 6 to 15 are never produced. -/
inductive ErrorCode where
  /-- The word decodes as ILLEGAL (R172). -/
  | ill
  /-- SETBIT position outside -22 to 254 (R173). -/
  | pos
  /-- Read index outside its space (R174). -/
  | idx
  /-- A fraction pass is due with FCNT = 149 (R175). -/
  | fovf
  /-- An integer pass is due with ICNT = 39 (R176). -/
  | iovf
deriving DecidableEq, Repr

/-- A response: rsp_err and rsp_data (R37). -/
structure Response where
  err : Bool
  data : Word
deriving DecidableEq, Repr

/-- What a host can do to the block (R212), seen at the transaction level (log entry 4). -/
inductive HostMove where
  /-- Hold rst_n = 0 for at least one rising edge (R200, R212). -/
  | reset
  /-- Offer a command word and hold it until the block accepts it (R60, R69). -/
  | command (w : Word)
  /-- Offer a command without holding it until acceptance, against the duty of R69. -/
  | unheldCommand
  /-- Drive rsp_ready = 1 until a waiting response is taken (R61). -/
  | take
deriving DecidableEq, Repr

/-- The machine: the architectural state, the response register, and what stands between the block and its host. -/
structure State where
  /-- The architectural state (R20). -/
  block : Block
  /-- The response register (R37): none while rsp_valid = 0, when rsp_err and rsp_data have no observable value. -/
  rsp : Option Response
  /-- A reset has been given since power-up; before it the block's state is unspecified (R204). -/
  up : Bool
  /-- What the host does next, oldest first: an input, the model's own field (log entry 4). -/
  moves : List HostMove
  /-- The responses the host has taken since the last reset, oldest first: the observation of R63 and R211, the
  model's own field (log entry 4). -/
  taken : List Response
  /-- How many words have been drawn for R69: the model's own field (log entry 6). -/
  draws : Nat
deriving DecidableEq, Repr

/-- The machine right after reset (R42, R202): every field of R20 at its reset value, no response pending, and no move
of the host listed (log entry 4). -/
def State.reset : State where
  block := Block.reset
  rsp := none
  up := true
  moves := []
  taken := []
  draws := 0

/-- A stop of the machine: there is none, so the type has no constructor and nothing raises one (log entry 18). Every
error of the block is a next state (R177, R180), and each command is a total function that never hangs (R63). -/
inductive Fault where
deriving DecidableEq, Repr

/-- Why the machine gives no meaning. -/
inductive Refusal where
  /-- Raised by an arm of exec whose instruction has no meaning yet; no arm does. Safe: nothing is claimed of it. -/
  | notModelled (mnemonic : String)
  /-- Raised by the step for a move of the host other than a reset before the first reset after power-up. R204: "a host
  run that issues a command before it is refused, not given a value". Safe: nothing is claimed of such a run. -/
  | beforeFirstReset
deriving DecidableEq, Repr

end Sys2Proof.Machine
end

