-- ==== Sys2Proof/Machine/Flags.lean ====
section
/-! DEFINITION. The condition flags FZ and IZ, the STATUS word and the error codes (spec/10_state.md R34, R35,
spec/60_exceptions.md R171). All are functions of the state, with no storage of their own. -/

namespace Sys2Proof.Machine

/-- FZ = 1 iff W[0] to W[4] are all zero (R34). -/
def Block.fz (b : Block) : Bool :=
  b.w[0] == 0#32 && b.w[1] == 0#32 && b.w[2] == 0#32 && b.w[3] == 0#32 && b.w[4] == 0#32

/-- IZ = 1 iff W[5] to W[8] are all zero (R34). -/
def Block.iz (b : Block) : Bool :=
  b.w[5] == 0#32 && b.w[6] == 0#32 && b.w[7] == 0#32 && b.w[8] == 0#32

/-- STATUS (R35): ICNT ++ FCNT ++ DIGIT ++ ECODE ++ 0 ++ ERR ++ IZ ++ FZ, zero-extended to 32 bits. -/
def Block.status (b : Block) : Word :=
  (b.icnt ++ b.fcnt ++ b.digit ++ b.ecode ++ 0#1 ++ BitVec.ofBool b.err ++ BitVec.ofBool b.iz
    ++ BitVec.ofBool b.fz).setWidth 32

/-- The 4-bit code of an error (R171). -/
def ErrorCode.code : ErrorCode → BitVec 4
  | .ill => 1#4
  | .pos => 2#4
  | .idx => 3#4
  | .fovf => 4#4
  | .iovf => 5#4

end Sys2Proof.Machine
end

