-- ==== Sys2Proof/Machine/Ops.lean ====
section
/-! DEFINITION. The named operations over the state: the accumulator's views, setting an accumulator bit, the digit
stores, answering a command, raising an error (the one shared operation of spec/60_exceptions.md R177), reset, and the
response register. -/

namespace Sys2Proof.Machine

/-- V, the accumulator's value: Σ W[k]·2^(32·k) over the nine words (R22). -/
def Block.accValue (b : Block) : Nat :=
  b.w[0].toNat + b.w[1].toNat * 2 ^ 32 + b.w[2].toNat * 2 ^ 64 + b.w[3].toNat * 2 ^ 96 + b.w[4].toNat * 2 ^ 128
    + b.w[5].toNat * 2 ^ 160 + b.w[6].toNat * 2 ^ 192 + b.w[7].toNat * 2 ^ 224 + b.w[8].toNat * 2 ^ 256

/-- F, the fraction view: the value held in W[0] to W[4] (R23). -/
def Block.fracValue (b : Block) : Nat :=
  b.w[0].toNat + b.w[1].toNat * 2 ^ 32 + b.w[2].toNat * 2 ^ 64 + b.w[3].toNat * 2 ^ 96 + b.w[4].toNat * 2 ^ 128

/-- I, the integer view: the value held in W[5] to W[8] (R23). -/
def Block.intValue (b : Block) : Nat :=
  b.w[5].toNat + b.w[6].toNat * 2 ^ 32 + b.w[7].toNat * 2 ^ 64 + b.w[8].toNat * 2 ^ 96

/-- Absolute bit j is bit (j mod 32) of W[j div 32]; setting it is an OR, with no carry (R9, R122, D6). -/
def Block.setAccBit (b : Block) (j : Fin 288) : Block :=
  have h : j.val / 32 < 9 := by have := j.isLt; omega
  { b with w := b.w.set (j.val / 32) (b.w[j.val / 32] ||| BitVec.ofNat 32 (2 ^ (j.val % 32))) }

/-- FDIG.append(d): write the next free entry and increment FCNT (R11, R29). -/
def Block.appendFdig (b : Block) (d : Digit) : Block :=
  { b with fdig := b.fdig ++ [d], fcnt := b.fcnt + 1#8 }

/-- IDIG.append(d): write the next free entry and increment ICNT (R11, R30). -/
def Block.appendIdig (b : Block) (d : Digit) : Block :=
  { b with idig := b.idig ++ [d], icnt := b.icnt + 1#6 }

/-- FDIG[k], read only for k < FCNT (R151). -/
def Block.readFdig (b : Block) (k : Nat) : Digit := b.fdig.getD k 0#4

/-- IDIG[k], read only for k < ICNT (R152). -/
def Block.readIdig (b : Block) (k : Nat) : Digit := b.idig.getD k 0#4

/-- A digit read-out: bit 8 VALID, bits 3:0 the digit, every other bit 0 (R151, R152). -/
def validDigit (d : Digit) : Word := (1#1 ++ 0#4 ++ d).setWidth 32

/-- respond(0, data): the command succeeds in this block state with this data (R11, R179). -/
def Block.respond (b : Block) (data : Word) : Block × Response := (b, ⟨false, data⟩)

/-- The error state after an error of this code: the first error's code is kept, ERR becomes 1 (R177, R178). -/
def Block.recordError (b : Block) (c : ErrorCode) : Block :=
  { b with ecode := if b.err then b.ecode else c.code, err := true }

/-- raise Error(code) (R177): the block is the one before the failing step, only ERR and ECODE change, and the
response is (1, STATUS) with STATUS taken after they are updated. -/
def Block.raiseError (b : Block) (c : ErrorCode) : Block × Response :=
  (b.recordError c, ⟨true, (b.recordError c).status⟩)

/-- A command's end: its block state takes effect as a whole and its response waits for the host (R61, R63). -/
def State.commit (s : State) (r : Block × Response) : State :=
  { s with block := r.1, rsp := some r.2 }

/-- A reset edge (R202): every field of R20 takes its reset value and a response not yet taken is discarded. The
host's further moves, which are no part of the block, stand, and a new host run begins (R211). -/
def State.atReset (s : State) : State :=
  { State.reset with moves := s.moves, draws := s.draws }

/-- The host takes the waiting response, if there is one (R61). -/
def State.takeResponse (s : State) : State :=
  match s.rsp with
  | some r => { s with rsp := none, taken := s.taken ++ [r] }
  | none => s

end Sys2Proof.Machine
end

