-- ==== Sys2Proof/Machine/Operands.lean ====
section
/-! DEFINITION. The operand forms: a signed position (format S) and the indexes of the three index spaces (format X),
each with the range the spec gives it (spec/20_memory.md R50, R51, R54). -/

namespace Sys2Proof.Machine

/-- The absolute bit a SETBIT position addresses, position + 33, or none outside -22 to 254 (R51, R122). -/
def accBit (pos : Int) : Option (Fin 288) :=
  if h : Config.posMin ≤ pos ∧ pos ≤ Config.posMax then
    some ⟨(pos + Config.offset).toNat, by simp only [Config.posMin, Config.posMax, Config.offset] at *; omega⟩
  else none

/-- An accumulator word index, or none when it is above 8 (R54, R150). -/
def wordIndex (k : Nat) : Option (Fin 9) := if h : k ≤ 8 then some ⟨k, by omega⟩ else none

/-- A fractional digit index, or none when it is 149 or above (R54, R151). -/
def fdigIndex (k : Nat) : Option (Fin 149) := if h : k < 149 then some ⟨k, h⟩ else none

/-- An integer digit index, or none when it is 39 or above (R54, R152). -/
def idigIndex (k : Nat) : Option (Fin 39) := if h : k < 39 then some ⟨k, h⟩ else none

end Sys2Proof.Machine
end

