-- ==== Sys2Proof/Machine/Extractor.lean ====
section
/-! DEFINITION. The digit extraction commands FMUL10, IDIV10, FRUN and IRUN (spec/42_extractor.md R130 to R133). The
word index and the running carry or remainder of a pass are the sequencer state of spec/10_state.md R41; they live
only inside one pass. -/

namespace Sys2Proof.Machine

/-- A pass under way: the accumulator so far and the running carry (FracPass) or remainder (IntPass) (R41). -/
structure Sweep where
  w : Vector Word 9
  carry : Nat

/-- One word of FracPass (R130): t = W[i]·10 + carry, W[i] := t[31:0], carry := t[63:32]. -/
def mulWord (p : Sweep) (i : Fin 9) : Sweep :=
  let t := p.w[i].toNat * 10 + p.carry
  { w := p.w.set i (BitVec.ofNat 32 (bits t 31 0)), carry := bits t 63 32 }

/-- One word of IntPass (R131): t = rem·2^32 + W[i], W[i] := t div 10, rem := t mod 10. -/
def divWord (p : Sweep) (i : Fin 9) : Sweep :=
  let t := p.carry * 2 ^ 32 + p.w[i].toNat
  { w := p.w.set i (BitVec.ofNat 32 (t / 10)), carry := t % 10 }

/-- The fraction sweep: words 0 to 4, least significant first, from carry 0 (R130). -/
def fracSweep (w : Vector Word 9) : Sweep := [0, 1, 2, 3, 4].foldl mulWord ⟨w, 0⟩

/-- The integer sweep: words 8 down to 5, most significant first, from remainder 0 (R131). -/
def intSweep (w : Vector Word 9) : Sweep := [8, 7, 6, 5].foldl divWord ⟨w, 0⟩

/-- FracPass (R130): FOVF and nothing written at FCNT = 149, else the sweep; its last carry is the digit. -/
def fracPass (b : Block) : Except ErrorCode Block :=
  if b.fcnt = 149#8 then .error .fovf
  else
    let d := BitVec.ofNat 4 (fracSweep b.w).carry
    .ok ({ b with w := (fracSweep b.w).w, digit := d }.appendFdig d)

/-- IntPass (R131): IOVF and nothing written at ICNT = 39, else the sweep; its last remainder is the digit. -/
def intPass (b : Block) : Except ErrorCode Block :=
  if b.icnt = 39#6 then .error .iovf
  else
    let d := BitVec.ofNat 4 (intSweep b.w).carry
    .ok ({ b with w := (intSweep b.w).w, digit := d }.appendIdig d)

/-- repeat pass until done (R132, R133): execute, then test. A pass that raises an error ends the loop with the passes
before it kept (R177). The first argument bounds the passes; log entry 11 says why the bound is never met. -/
def repeatPass (pass : Block → Except ErrorCode Block) (done : Block → Bool) : Nat → Block → Block × Option ErrorCode
  | 0, b => (b, none)
  | n + 1, b =>
    match pass b with
    | .error c => (b, some c)
    | .ok b' => if done b' then (b', none) else repeatPass pass done n b'

/-- The fraction loop of FRUN. From any state it ends within 160 passes: F mod 2^160 gains a trailing zero bit a pass. -/
def fracLoop (b : Block) : Block × Option ErrorCode := repeatPass fracPass Block.fz 160 b

/-- The integer loop of IRUN. From any state it ends within 39 passes: I < 2^128 < 10^39. -/
def intLoop (b : Block) : Block × Option ErrorCode := repeatPass intPass Block.iz 39 b

/-- The end of a command that may have met an error: respond (0, STATUS), or raise the error (R177). -/
def finish (r : Block × Option ErrorCode) : Block × Response :=
  match r.2 with
  | none => r.1.respond r.1.status
  | some c => r.1.raiseError c

/-- FMUL10 (R130): one FracPass. -/
def fmul10Command (b : Block) : Block × Response :=
  match fracPass b with
  | .error c => b.raiseError c
  | .ok b' => b'.respond b'.status

/-- IDIV10 (R131): one IntPass. -/
def idiv10Command (b : Block) : Block × Response :=
  match intPass b with
  | .error c => b.raiseError c
  | .ok b' => b'.respond b'.status

/-- FRUN (R132): FracPass until FZ = 1. -/
def frunCommand (b : Block) : Block × Response := finish (fracLoop b)

/-- IRUN (R133): IntPass until IZ = 1. -/
def irunCommand (b : Block) : Block × Response := finish (intLoop b)

/-- FMUL10 in the machine (R130). -/
def execFmul10 (s : State) : Host.Outcome State Fault Refusal := .next (s.commit (fmul10Command s.block))

/-- IDIV10 in the machine (R131). -/
def execIdiv10 (s : State) : Host.Outcome State Fault Refusal := .next (s.commit (idiv10Command s.block))

/-- FRUN in the machine (R132). -/
def execFrun (s : State) : Host.Outcome State Fault Refusal := .next (s.commit (frunCommand s.block))

/-- IRUN in the machine (R133). -/
def execIrun (s : State) : Host.Outcome State Fault Refusal := .next (s.commit (irunCommand s.block))

end Sys2Proof.Machine
end

