-- ==== Sys2Proof/Machine/Readout.lean ====
section
/-! DEFINITION. The read-out commands RDW, RDFD and RDID (spec/43_readout.md R150 to R152). A read that succeeds
changes no field of the block (spec/20_memory.md R56). -/

namespace Sys2Proof.Machine

/-- RDW k (R150): IDX above 8, else the whole word W[k]. -/
def rdwCommand (k : Nat) (b : Block) : Block × Response :=
  match wordIndex k with
  | none => b.raiseError .idx
  | some i => b.respond b.w[i]

/-- RDFD k (R151): IDX at 149 or above, else the digit with VALID = 1 below FCNT, and 0 at or past FCNT. -/
def rdfdCommand (k : Nat) (b : Block) : Block × Response :=
  match fdigIndex k with
  | none => b.raiseError .idx
  | some i => b.respond (if i.val < b.fcnt.toNat then validDigit (b.readFdig i.val) else 0#32)

/-- RDID k (R152): IDX at 39 or above, else the digit with VALID = 1 below ICNT, and 0 at or past ICNT. -/
def rdidCommand (k : Nat) (b : Block) : Block × Response :=
  match idigIndex k with
  | none => b.raiseError .idx
  | some i => b.respond (if i.val < b.icnt.toNat then validDigit (b.readIdig i.val) else 0#32)

/-- RDW in the machine (R150). -/
def execRdw (k : Nat) (s : State) : Host.Outcome State Fault Refusal := .next (s.commit (rdwCommand k s.block))

/-- RDFD in the machine (R151). -/
def execRdfd (k : Nat) (s : State) : Host.Outcome State Fault Refusal := .next (s.commit (rdfdCommand k s.block))

/-- RDID in the machine (R152). -/
def execRdid (k : Nat) (s : State) : Host.Outcome State Fault Refusal := .next (s.commit (rdidCommand k s.block))

end Sys2Proof.Machine
end

