-- ==== Sys2Proof/Machine/Scaler.lean ====
section
/-! DEFINITION. The control and scaler commands NOP, CLR and SETBIT (spec/41_scaler.md R120 to R122). -/

namespace Sys2Proof.Machine

/-- NOP (R120): nothing changes, STATUS is the response. -/
def nopCommand (b : Block) : Block × Response := b.respond b.status

/-- CLR (R121): all nine words, DIGIT, the counts, ERR and ECODE become 0 and the digit stores empty; the response is
STATUS after the writes. -/
def clrCommand (b : Block) : Block × Response :=
  let b' := { b with w := Vector.replicate 9 0#32, digit := 0#4, fcnt := 0#8, icnt := 0#6, fdig := [], idig := [],
                     err := false, ecode := 0#4 }
  b'.respond b'.status

/-- SETBIT (R122): POS outside the legal positions, else OR the bit in and respond STATUS. -/
def setbitCommand (pos : Int) (b : Block) : Block × Response :=
  match accBit pos with
  | none => b.raiseError .pos
  | some j => (b.setAccBit j).respond (b.setAccBit j).status

/-- NOP in the machine (R120). -/
def execNop (s : State) : Host.Outcome State Fault Refusal := .next (s.commit (nopCommand s.block))

/-- CLR in the machine (R121). -/
def execClr (s : State) : Host.Outcome State Fault Refusal := .next (s.commit (clrCommand s.block))

/-- SETBIT in the machine (R122). -/
def execSetbit (pos : Int) (s : State) : Host.Outcome State Fault Refusal :=
  .next (s.commit (setbitCommand pos s.block))

end Sys2Proof.Machine
end

