-- ==== Sys2Proof/Machine/Dispatch.lean ====
section
/-! DEFINITION. One arm for each command, each a direct call of its meaning. -/

namespace Sys2Proof.Machine

def exec (i : Instr) (s : State) : Host.Outcome State Fault Refusal :=
  match i with
  -- spec/41_scaler.md
  | .nop => Sys2Proof.Machine.execNop s
  | .clr => Sys2Proof.Machine.execClr s
  | .setbit pos => Sys2Proof.Machine.execSetbit pos s
  -- spec/42_extractor.md
  | .fmul10 => Sys2Proof.Machine.execFmul10 s
  | .idiv10 => Sys2Proof.Machine.execIdiv10 s
  | .frun => Sys2Proof.Machine.execFrun s
  | .irun => Sys2Proof.Machine.execIrun s
  -- spec/43_readout.md
  | .rdw k => Sys2Proof.Machine.execRdw k s
  | .rdfd k => Sys2Proof.Machine.execRdfd k s
  | .rdid k => Sys2Proof.Machine.execRdid k s

end Sys2Proof.Machine
end

