-- ==== Sys2Proof/Machine/Exec.lean ====
section
/-! DEFINITION. The transaction-level semantics (spec/20_memory.md R63): Exec on one command word, its fold over a
host's command sequence, and the same in the machine, through `exec`. -/

namespace Sys2Proof.Machine

/-- The rule of a decoded command, on the architectural state (R63). -/
def commandRule (i : Instr) (b : Block) : Block × Response :=
  match i with
  | .nop => nopCommand b
  | .clr => clrCommand b
  | .setbit pos => setbitCommand pos b
  | .fmul10 => fmul10Command b
  | .idiv10 => idiv10Command b
  | .frun => frunCommand b
  | .irun => irunCommand b
  | .rdw k => rdwCommand k b
  | .rdfd k => rdfdCommand k b
  | .rdid k => rdidCommand k b

/-- Exec (R63): decode the word and apply the command's rule, or raise ILL (R86, R172). Total on all 2^32 words. -/
def transact (b : Block) (w : Word) : Block × Response :=
  match decode w with
  | .ok i => commandRule i b
  | .error _ => b.raiseError .ill

/-- A run of the block on a host command sequence (R63): the fold of Exec, with its response list. -/
def transactAll (b : Block) : List Word → Block × List Response
  | [] => (b, [])
  | w :: ws =>
    let r := transact b w
    let rest := transactAll r.1 ws
    (rest.1, r.2 :: rest.2)

/-- An accepted command word runs in the machine (R60, R63): a decoded command by `exec`, an ILLEGAL word by raising
ILL. -/
def execWord (w : Word) (s : State) : Host.Outcome State Fault Refusal :=
  match decode w with
  | .ok i => exec i s
  | .error _ => .next (s.commit (s.block.raiseError .ill))

end Sys2Proof.Machine
end

