-- ==== Sys2Proof/Machine/HostPort.lean ====
section
/-! DEFINITION. What each move of the host does to the machine, seen at the transaction level (spec/20_memory.md R60 to
R62 and R69, spec/70_reset_and_hazards.md R200 to R204, R208 and R212). -/

namespace Sys2Proof.Machine

/-- The block can accept a command: no response is waiting (R62; between two steps no command is executing). -/
def State.ready (s : State) : Bool := s.rsp.isNone

/-- The host's next move is m, and rest are the moves after it. A reset is obeyed at any time (R202, R212); before the
first one nothing else is admitted (R204). A command offered while a response waits is not accepted, and the block
waits unchanged (R61, R62, R208). A word that was not held is a free value (R69). -/
def hostMove (m : HostMove) (rest : List HostMove) (s : State) : Host.Outcome State Fault Refusal :=
  match m with
  | .reset => .next { s with moves := rest }.atReset
  | .command w =>
    if s.up = false then .refused .beforeFirstReset
    else if s.ready then execWord w { s with moves := rest }
    else .next s
  | .unheldCommand =>
    if s.up = false then .refused .beforeFirstReset
    else if s.ready then execWord (Config.undeterminedWord s.draws) { s with moves := rest, draws := s.draws + 1 }
    else .next s
  | .take =>
    if s.up = false then .refused .beforeFirstReset
    else .next { s with moves := rest }.takeResponse

/-- The host's moves that send these command words and take each response before the next (R206, R211). -/
def hostRun (ws : List Word) : List HostMove := ws.flatMap fun w => [.command w, .take]

/-- The word of a table row's instruction, as the host offers it on the command port: bit i of the number is bit i of
cmd_data (R53), and the bits above nbits are 0. -/
def portWord (nbits w : Nat) : Word := BitVec.ofNat 32 (w % 2 ^ nbits)

end Sys2Proof.Machine
end

