-- ==== Sys2Proof/Machine/Step.lean ====
section
/-! DEFINITION. One step of the machine: the host's next move takes effect, as a whole (spec/20_memory.md R55, R63). A
block whose host makes no move keeps all its state (spec/60_exceptions.md R191). -/

namespace Sys2Proof.Machine

/-- One step (log entries 4 and 5). -/
def step (s : State) : Host.Outcome State Fault Refusal :=
  match s.moves with
  | [] => .next s
  | m :: rest => hostMove m rest s

/-- The state in which the host offers this instruction next, to a block that has been reset and has no response
waiting (log entry 4). -/
def State.withFetchWord (s : State) (nbits w : Nat) : State :=
  { s with up := true, rsp := none, moves := .command (portWord nbits w) :: s.moves }

end Sys2Proof.Machine
end

