-- ==== Sys2Proof/Machine/Unpacker.lean ====
section
/-! DEFINITION. The host-side Unpacker and the pseudo-instructions LOADF, EXTRACT and CONVERT (spec/30_encoding.md R92
to R95). It is no part of the block (spec/00_scope.md R5); the spec states it as an expansion into the block's
commands. -/

namespace Sys2Proof.Machine

/-- The sign bit s = b[31] (R93). -/
def floatSign (b : Word) : Bool := bits b.toNat 31 31 == 1

/-- The exponent field e = b[30:23] (R93). -/
def floatExponent (b : Word) : Nat := bits b.toNat 30 23

/-- The mantissa field m = b[22:0] (R93). -/
def floatMantissa (b : Word) : Nat := bits b.toNat 22 0

/-- The classes of a binary32 pattern (R93). -/
inductive FloatClass where
  | infinity
  | nan
  | zero
  | subnormal
  | normal
deriving DecidableEq, Repr

/-- Classification by the exponent and mantissa fields (R93). -/
def floatClass (b : Word) : FloatClass :=
  if floatExponent b = 0xFF then (if floatMantissa b = 0 then .infinity else .nan)
  else if floatExponent b = 0 then (if floatMantissa b = 0 then .zero else .subnormal)
  else .normal

/-- The pattern is finite: class Zero, Subnormal or Normal (R94). -/
def floatFinite (b : Word) : Bool := floatExponent b != 0xFF

/-- The mantissa scan (R94): bits n-1 down to 0, most significant first; a set bit appends x, and x falls by one after
every bit, set or not. -/
def scanMantissa (m : Nat) : Nat → Int → List Int
  | 0, _ => []
  | n + 1, x => if bits m n n = 1 then x :: scanMantissa m n (x - 1) else scanMantissa m n (x - 1)

/-- Positions(b) (R94): the implicit leading bit at x = e if e ≠ 0, then the 23 mantissa bits. x stays biased (C3). -/
def floatPositions (b : Word) : List Int :=
  let x : Int := floatExponent b
  if floatExponent b ≠ 0 then x :: scanMantissa (floatMantissa b) Config.mb (x - 1)
  else scanMantissa (floatMantissa b) Config.mb x

/-- LOADF b (R92, R95): CLR, then SETBIT p for each position in order; refused with its class for infinity and NaN,
which emit no command. -/
def loadf (b : Word) : Except FloatClass (List Instr) :=
  if floatFinite b then .ok (.clr :: (floatPositions b).map .setbit) else .error (floatClass b)

/-- EXTRACT (R92): FRUN, then IRUN. -/
def extract : List Instr := [.frun, .irun]

/-- CONVERT b (R92): LOADF b, then EXTRACT. -/
def convert (b : Word) : Except FloatClass (List Instr) :=
  match loadf b with
  | .ok is => .ok (is ++ extract)
  | .error c => .error c

end Sys2Proof.Machine
end

