-- ==== Sys2Proof/Machine/Assembler.lean ====
section
/-! DEFINITION. The assembler and the disassembler (spec/30_encoding.md R90 to R92), host-side functions over text held
as a list of characters. What R90 leaves open of the text form is log entry 14. -/

namespace Sys2Proof.Machine

/-- Why the assembler refuses a line (R90, R91, R95). -/
inductive AsmReason where
  /-- The first word of the line is no mnemonic (R90). -/
  | unknownMnemonic
  /-- The command needs an operand (R90). -/
  | missingOperand
  /-- The line holds more than its command's operands (R90). -/
  | extraOperand
  /-- The operand is no integer literal (R90). -/
  | notAnInteger
  /-- The operand is outside the range that encodes (R91, R92). -/
  | outOfRange
  /-- LOADF or CONVERT of an infinity or a NaN (R95). -/
  | special (c : FloatClass)
deriving DecidableEq, Repr

/-- A refused program: the line's number, from 1, and the reason (R90). -/
structure AsmError where
  line : Nat
  reason : AsmReason
deriving DecidableEq, Repr

/-- The pieces of a text between the characters that satisfy p. -/
def splitText (p : Char → Bool) : List Char → List (List Char)
  | [] => [[]]
  | c :: cs =>
    match splitText p cs with
    | [] => [[c]]
    | piece :: pieces => if p c then [] :: piece :: pieces else (c :: piece) :: pieces

/-- A blank inside a line. -/
def isBlank (c : Char) : Bool := c == ' ' || c == '\t' || c == '\r'

/-- A letter as a capital letter: the assembler accepts any letter case (R90). -/
def capital (c : Char) : Char := if 'a' ≤ c ∧ c ≤ 'z' then Char.ofNat (c.toNat - 32) else c

/-- The words of a line, without its comment, which runs from ';' to the line's end (R90). -/
def lineWords (line : List Char) : List (List Char) :=
  (splitText isBlank (line.takeWhile (· != ';'))).filter (!·.isEmpty)

/-- The value of a digit character, in bases up to 16. -/
def digitValue (c : Char) : Option Nat :=
  if '0' ≤ c ∧ c ≤ '9' then some (c.toNat - 48)
  else if 'A' ≤ capital c ∧ capital c ≤ 'F' then some ((capital c).toNat - 55)
  else none

/-- The number a digit string writes in a base after the digits read so far, or none at another character. -/
def readDigits (base : Nat) : Nat → List Char → Option Nat
  | acc, [] => some acc
  | acc, c :: cs =>
    match digitValue c with
    | some d => if d < base then readDigits base (acc * base + d) cs else none
    | none => none

/-- The number a nonempty digit string writes. -/
def readNumber (base : Nat) (cs : List Char) : Option Nat :=
  if cs.isEmpty then none else readDigits base 0 cs

/-- An integer literal (R90): decimal, optionally with a leading '-', or hex with 0x or 0X. -/
def readInteger (cs : List Char) : Option Int :=
  match cs with
  | '0' :: 'x' :: ds => (readNumber 16 ds).map Int.ofNat
  | '0' :: 'X' :: ds => (readNumber 16 ds).map Int.ofNat
  | '-' :: ds => (readNumber 10 ds).map fun n => -(n : Int)
  | ds => (readNumber 10 ds).map Int.ofNat

/-- The commands without an operand, and EXTRACT (R91, R92). -/
def plainLine (name : List Char) : Option (List Instr) :=
  if name = ['N', 'O', 'P'] then some [.nop]
  else if name = ['C', 'L', 'R'] then some [.clr]
  else if name = ['F', 'M', 'U', 'L', '1', '0'] then some [.fmul10]
  else if name = ['I', 'D', 'I', 'V', '1', '0'] then some [.idiv10]
  else if name = ['F', 'R', 'U', 'N'] then some [.frun]
  else if name = ['I', 'R', 'U', 'N'] then some [.irun]
  else if name = ['E', 'X', 'T', 'R', 'A', 'C', 'T'] then some extract
  else none

/-- An index command: the assembler refuses an index outside 0 to 255 (R91). -/
def indexLine (i : Nat → Instr) (v : Int) : Except AsmReason (List Instr) :=
  if 0 ≤ v ∧ v ≤ 255 then .ok [i v.toNat] else .error .outOfRange

/-- A pseudo-instruction over a bit pattern 0 to 2^32-1 (R92); infinity and NaN are refused with their class (R95). -/
def patternLine (expand : Word → Except FloatClass (List Instr)) (v : Int) : Except AsmReason (List Instr) :=
  if 0 ≤ v ∧ v < 2 ^ 32 then
    match expand (BitVec.ofNat 32 v.toNat) with
    | .ok is => .ok is
    | .error c => .error (.special c)
  else .error .outOfRange

/-- The commands with one operand (R91, R92). -/
def operandLine (name : List Char) : Option (Int → Except AsmReason (List Instr)) :=
  if name = ['S', 'E', 'T', 'B', 'I', 'T'] then
    some fun v => if -32768 ≤ v ∧ v ≤ 32767 then .ok [.setbit v] else .error .outOfRange
  else if name = ['R', 'D', 'W'] then some (indexLine .rdw)
  else if name = ['R', 'D', 'F', 'D'] then some (indexLine .rdfd)
  else if name = ['R', 'D', 'I', 'D'] then some (indexLine .rdid)
  else if name = ['L', 'O', 'A', 'D', 'F'] then some (patternLine loadf)
  else if name = ['C', 'O', 'N', 'V', 'E', 'R', 'T'] then some (patternLine convert)
  else none

/-- One line of a program: the commands it stands for. A blank line or a line with only a comment has none (R90). -/
def assembleLine (line : List Char) : Except AsmReason (List Instr) :=
  match lineWords line with
  | [] => .ok []
  | word :: operands =>
    match plainLine (word.map capital), operandLine (word.map capital), operands with
    | some is, _, [] => .ok is
    | some _, _, _ :: _ => .error .extraOperand
    | none, none, _ => .error .unknownMnemonic
    | none, some _, [] => .error .missingOperand
    | none, some _, _ :: _ :: _ => .error .extraOperand
    | none, some f, [o] =>
      match readInteger o with
      | some v => f v
      | none => .error .notAnInteger

/-- The lines of a program from line number n on; the first line refused refuses the whole program, and it
is the one named. R90 says "naming the line" and leaves open which, where several are refused; that an operand out of
range (R91, R92), an infinity or a NaN (R95) refuses the other lines too is the model's choice (log entry 14). -/
def assembleLines : Nat → List (List Char) → Except AsmError (List Instr)
  | _, [] => .ok []
  | n, l :: ls =>
    match assembleLine l with
    | .error r => .error ⟨n, r⟩
    | .ok is =>
      match assembleLines (n + 1) ls with
      | .error e => .error e
      | .ok rest => .ok (is ++ rest)

/-- The assembler (R90 to R92): one command a line, the command words in order, or the refusal of the whole program. -/
def assemble (text : List Char) : Except AsmError (List Word) :=
  match assembleLines 1 (splitText (· == '\n') text) with
  | .ok is => .ok (is.map encode)
  | .error e => .error e

/-- The digits of a number in a base up to 16, most significant first, at least `width` of them. -/
def numberText (base width n : Nat) : List Char :=
  let ds := Nat.toDigits base n |>.map capital
  List.replicate (width - ds.length) '0' ++ ds

/-- A signed decimal (R91). -/
def signedText (v : Int) : List Char :=
  if v < 0 then '-' :: numberText 10 1 v.natAbs else numberText 10 1 v.natAbs

/-- A command with an index operand, printed. -/
def indexText (name : List Char) (k : Nat) : List Char := name ++ [' '] ++ numberText 10 1 k

/-- The text of a command: SETBIT's operand as a signed decimal, an index as an unsigned decimal (R91). -/
def commandText : Instr → List Char
  | .nop => ['N', 'O', 'P']
  | .clr => ['C', 'L', 'R']
  | .setbit pos => ['S', 'E', 'T', 'B', 'I', 'T', ' '] ++ signedText pos
  | .fmul10 => ['F', 'M', 'U', 'L', '1', '0']
  | .idiv10 => ['I', 'D', 'I', 'V', '1', '0']
  | .frun => ['F', 'R', 'U', 'N']
  | .irun => ['I', 'R', 'U', 'N']
  | .rdw k => indexText ['R', 'D', 'W'] k
  | .rdfd k => indexText ['R', 'D', 'F', 'D'] k
  | .rdid k => indexText ['R', 'D', 'I', 'D'] k

/-- The disassembler (R91): a command's text, or '.word 0xXXXXXXXX' for an illegal word. -/
def disassemble (w : Word) : List Char :=
  match decode w with
  | .ok i => commandText i
  | .error _ => ['.', 'w', 'o', 'r', 'd', ' ', '0', 'x'] ++ numberText 16 8 w.toNat

end Sys2Proof.Machine
end

