-- ==== Sys2Proof/Machine/Formatter.lean ====
section
/-! DEFINITION. The host-side Formatter: Render and the special values (spec/43_readout.md R153, R154), and the whole
conversion of one binary32 pattern. It is no part of the block (spec/00_scope.md R5); text is a list of characters. -/

namespace Sys2Proof.Machine

/-- ch(d), the character with code 0x30 + d (R153, K2). -/
def digitChar (d : Digit) : Char := Char.ofNat (0x30 + d.toNat)

/-- Render(s, S) (R153): the sign, the integer digits from IDIG[ICNT-1] down, a point, the fraction digits from FDIG[0]
up. R153 gives it for a state in which FRUN and IRUN have both succeeded since the last CLR (log entry 15). -/
def render (s : Bool) (b : Block) : List Char :=
  (if s then ['-'] else []) ++ ((List.range b.icnt.toNat).reverse.map fun k => digitChar (b.readIdig k))
    ++ ['.'] ++ ((List.range b.fcnt.toNat).map fun k => digitChar (b.readFdig k))

/-- The host's text for a pattern that never reaches the block, or none for a finite one (R154, C5). -/
def renderSpecial (b : Word) : Option (List Char) :=
  match floatClass b with
  | .infinity => some ((if floatSign b then ['-'] else []) ++ ['i', 'n', 'f'])
  | .nan => some ['n', 'a', 'n']
  | .zero => none
  | .subnormal => none
  | .normal => none

/-- The command words the host sends for a list of commands (R91). -/
def sendWords (is : List Instr) : List Word := is.map encode

/-- The whole conversion of a pattern, from any block state (R155, R154): the block's end state, the responses, and the
text. A special value sends no command (R95). -/
def conversion (b : Word) (start : Block) : Block × List Response × List Char :=
  match convert b with
  | .ok is =>
    let r := transactAll start (sendWords is)
    (r.1, r.2, render (floatSign b) r.1)
  | .error _ => (start, [], (renderSpecial b).getD [])

end Sys2Proof.Machine
end

