-- ==== Sys2Proof/Machine/FloatValue.lean ====
section
/-! DEFINITION. The value of a binary32 pattern (spec/30_encoding.md R97, marked there as general knowledge, K1). Only
laws about meaning use it; no command rule depends on it. -/

namespace Sys2Proof.Machine

/-- |value(b)| of a finite pattern (R97): (1 + m/2^23)·2^(e-127) for a Normal, (m/2^23)·2^(-126) for a Subnormal, 0 for
Zero. -/
def floatMagnitude (b : Word) : ℚ :=
  if floatExponent b = 0 then (floatMantissa b / 2 ^ 23 : ℚ) * 2 ^ (-126 : ℤ)
  else (1 + floatMantissa b / 2 ^ 23 : ℚ) * 2 ^ ((floatExponent b : ℤ) - 127)

/-- Σ IDIG[k]·10^k over the stored integer digits (R139). -/
def idigValue (b : Block) : Nat := b.idig.foldr (fun d acc => d.toNat + 10 * acc) 0

/-- Σ FDIG[k]·10^-(k+1) over the stored fraction digits (R139). -/
def fdigValue (b : Block) : ℚ := b.fdig.foldr (fun d acc => (d.toNat + acc) / 10) 0

end Sys2Proof.Machine
end

