-- ==== Sys2Proof/Machine/Cycle.lean ====
section
/-! DEFINITION. The cycle-level machine that refines the transaction level (spec/00_scope.md R6): the port signals and
the handshake (spec/20_memory.md R59 to R62, R69), the sequencer's busy flag (spec/10_state.md R41), reset edges
(spec/70_reset_and_hazards.md R200 to R204) and the latencies (R209) over the open parameters of R8. -/

namespace Sys2Proof.Machine

/-- The input signals as a rising edge of clk samples them (R59). -/
structure Pins where
  rstN : Bool
  cmdValid : Bool
  cmdData : Word
  rspReady : Bool
deriving DecidableEq, Repr

/-- The output signals (R59). rsp is rsp_valid with rsp_err and rsp_data: none while rsp_valid = 0 (S3). -/
structure Outputs where
  cmdReady : Bool
  rsp : Option Response
deriving DecidableEq, Repr

/-- A command in execution: the accepted word and the edges still to come before its response (R41, R61). -/
structure Running where
  word : Word
  left : Nat
deriving DecidableEq, Repr

/-- What the host has done with the command it offers: the duty of R69. -/
inductive Offer where
  /-- Nothing has been offered since the last acceptance or reset. -/
  | idle
  /-- This word has been offered at every edge since its first. -/
  | held (w : Word)
  /-- The word was changed, or cmd_valid dropped, before acceptance. -/
  | broken
deriving DecidableEq, Repr

/-- The cycle-level state: the transaction-level state with the response register, the sequencer, and the monitor of
the host's duty. -/
structure CycleState where
  machine : State
  running : Option Running
  offer : Offer
deriving DecidableEq, Repr

/-- The state after a reset edge (R202): the sequencer idle, no response pending. A new host run begins (R211), with
nothing offered (log entry 10). -/
def CycleState.afterReset (s : State) : CycleState := { machine := s.atReset, running := none, offer := .idle }

/-- The latency of a run that made n passes of the given latency and ended in an error or not (R209). -/
def runLatency (pass n : Nat) (failed : Bool) : Nat := n * pass + (if failed then Config.latSimple else 0)

/-- The latency of an accepted word in cycles, from the accepting edge to the first cycle with rsp_valid = 1 (R209). -/
def latency (w : Word) (b : Block) : Nat :=
  match decode w with
  | .error _ => Config.latSimple
  | .ok .nop => Config.latSimple
  | .ok .clr => Config.latSimple
  | .ok (.setbit _) => Config.latSimple
  | .ok .fmul10 => if b.fcnt = 149#8 then Config.latSimple else Config.latFpass
  | .ok .idiv10 => if b.icnt = 39#6 then Config.latSimple else Config.latIpass
  | .ok .frun => runLatency Config.latFpass ((fracLoop b).1.fdig.length - b.fdig.length) (fracLoop b).2.isSome
  | .ok .irun => runLatency Config.latIpass ((intLoop b).1.idig.length - b.idig.length) (intLoop b).2.isSome
  | .ok (.rdw _) => Config.latSimple
  | .ok (.rdfd _) => Config.latSimple
  | .ok (.rdid _) => Config.latSimple

/-- cmd_ready (R62): rst_n = 1, no command executing, no response waiting. -/
def cmdReady (p : Pins) (c : CycleState) : Bool := p.rstN && c.running.isNone && c.machine.rsp.isNone

/-- The outputs in a cycle. While rst_n = 0, in the first reset too, cmd_ready = 0 and rsp_valid = 0 (R201, log
entry 21); before the first reset with rst_n = 1 they are unspecified (R204), and none is given. -/
def outputs (p : Pins) (c : CycleState) : Option Outputs :=
  if p.rstN = false then some ⟨false, none⟩
  else if c.machine.up = false then none
  else some ⟨cmdReady p c, c.machine.rsp⟩

/-- The monitor after an edge at which nothing is accepted (R69). -/
def nextOffer (p : Pins) : Offer → Offer
  | .idle => if p.cmdValid then .held p.cmdData else .idle
  | .held w => if p.cmdValid && p.cmdData == w then .held w else .broken
  | .broken => .broken

/-- The host has held its duty up to and at this accepting edge (R69). -/
def dutyKept (p : Pins) : Offer → Bool
  | .idle => true
  | .held w => p.cmdData == w
  | .broken => false

/-- The command ends: its effect and its response appear (R61, R63). -/
def completeCommand (w : Word) (o : Offer) (s : State) : Host.Outcome CycleState Fault Refusal :=
  match execWord w s with
  | .next s' => .next ⟨s', none, o⟩
  | .fault f => .fault f
  | .refused r => .refused r

/-- Edges left before the response: the last one completes the command (R61). -/
def advanceCommand (w : Word) (left : Nat) (o : Offer) (s : State) : Host.Outcome CycleState Fault Refusal :=
  if left ≤ 1 then completeCommand w o s else .next ⟨s, some ⟨w, left - 1⟩, o⟩

/-- An accepting edge (R60): the accepted word is cmd_data, or a free value if the host broke its duty (R69). -/
def acceptCommand (p : Pins) (o : Offer) (s : State) : Host.Outcome CycleState Fault Refusal :=
  if dutyKept p o then advanceCommand p.cmdData (latency p.cmdData s.block) .idle s
  else
    let w := Config.undeterminedWord s.draws
    advanceCommand w (latency w s.block) .idle { s with draws := s.draws + 1 }

/-- One rising edge of clk (R59 to R62, R200 to R204). The transaction-level list of moves plays no part: the pins are
the input. -/
def clockEdge (p : Pins) (c : CycleState) : Host.Outcome CycleState Fault Refusal :=
  if p.rstN = false then .next (CycleState.afterReset c.machine)
  else if c.machine.up = false then
    (if p.cmdValid then .refused .beforeFirstReset else .next c)
  else
    match c.machine.rsp, c.running with
    | some _, _ =>
      .next { c with machine := if p.rspReady then c.machine.takeResponse else c.machine, offer := nextOffer p c.offer }
    | none, some r => advanceCommand r.word r.left (nextOffer p c.offer) c.machine
    | none, none =>
      if p.cmdValid then acceptCommand p c.offer c.machine else .next { c with offer := nextOffer p c.offer }

/-- The edges of a list of pin samples, in order, stopping at the first refusal. -/
def clockEdges : List Pins → CycleState → Host.Outcome CycleState Fault Refusal
  | [], c => .next c
  | p :: ps, c =>
    match clockEdge p c with
    | .next c' => clockEdges ps c'
    | .fault f => .fault f
    | .refused r => .refused r

end Sys2Proof.Machine
end

