-- ==== Sys2Proof/Safety.lean ====
section
/-! DEFINITION. What a good state and a good end of a command are, in the terms claims use: the invariants of
spec/10_state.md R25, R31 and R43, how a command ends (spec/60_exceptions.md R177, R179), and repeated passes. -/

namespace Sys2Proof.Machine

/-- The invariants of the architectural state: the ranges and the error pair of R43, the zero low bits of R25, digits
in 0 to 9 (R31), and the digit stores' lengths, which are their counts (R29, R30). -/
structure Block.Inv (b : Block) : Prop where
  fcnt_le : b.fcnt.toNat ≤ 149
  icnt_le : b.icnt.toNat ≤ 39
  ecode_le : b.ecode.toNat ≤ 5
  ecode_zero_iff : b.ecode = 0#4 ↔ b.err = false
  low_bits : b.w[0].toNat % 2 ^ 11 = 0
  digit_le : b.digit.toNat ≤ 9
  fdig_le : ∀ d ∈ b.fdig, d.toNat ≤ 9
  idig_le : ∀ d ∈ b.idig, d.toNat ≤ 9
  fdig_length : b.fdig.length = b.fcnt.toNat
  idig_length : b.idig.length = b.icnt.toNat

/-- The invariant of the machine: its architectural state is good. -/
def State.Inv (s : State) : Prop := s.block.Inv

/-- The invariant of the cycle-level machine: the architectural state is good, and a response waits only while no
command executes, so at most one command is outstanding (R62). -/
def CycleState.Inv (c : CycleState) : Prop := c.machine.Inv ∧ (c.running = none ∨ c.machine.rsp = none)

/-- The command succeeds (R179): its next state differs from s in the block, which is now b, and in the response
(0, data), and in nothing else. -/
def Succeeds (i : Instr) (s : State) (b : Block) (data : Word) : Prop :=
  exec i s = .next { s with block := b, rsp := some ⟨false, data⟩ }

/-- Block b after an error of this code (R177, R178): ERR is 1, ECODE is the code unless an earlier error stands. -/
def afterError (b : Block) (code : BitVec 4) : Block :=
  { b with err := true, ecode := if b.err = true then b.ecode else code }

/-- The command raises an error (R177): b is the block before the failing step, only ERR and ECODE of it change, and
the response is (1, STATUS). -/
def FailsFrom (i : Instr) (s : State) (b : Block) (code : BitVec 4) : Prop :=
  exec i s = .next { s with block := afterError b code, rsp := some ⟨true, (afterError b code).status⟩ }

/-- The command raises an error and has no other effect (R177, R182). -/
def Fails (i : Instr) (s : State) (code : BitVec 4) : Prop := FailsFrom i s s.block code

/-- The response of the state is an error response. -/
def errorResponse (s : State) : Bool :=
  match s.rsp with
  | some r => r.err
  | none => false

/-- The block after exactly n successful passes. -/
def afterPasses (pass : Block → Except ErrorCode Block) : Nat → Block → Except ErrorCode Block
  | 0, b => .ok b
  | n + 1, b =>
    match pass b with
    | .ok b' => afterPasses pass n b'
    | .error c => .error c

/-- From edge p, which accepts word w in c, the cycle-level machine runs w (R60, R61, R63): over it and further edges
with rst_n = 1, whatever else the pins do, no response shows, the block stays as it was and cmd_ready = 0 until latency w
edges have passed, and after exactly that many the block and the response are those of Exec. -/
def RunsWord (w : Word) (p : Pins) (c : CycleState) : Prop :=
  ∀ ps : List Pins, (∀ q ∈ ps, q.rstN = true) → ps.length + 1 ≤ latency w c.machine.block →
    ∃ c', clockEdges (p :: ps) c = .next c' ∧ c'.machine.moves = c.machine.moves ∧
      (ps.length + 1 < latency w c.machine.block →
        c'.machine.rsp = none ∧ c'.machine.block = c.machine.block ∧ ∀ q, cmdReady q c' = false) ∧
      (ps.length + 1 = latency w c.machine.block →
        c'.running = none ∧ c'.machine.block = (transact c.machine.block w).1 ∧
        c'.machine.rsp = some (transact c.machine.block w).2)

/-- The number of passes FRUN needs from fraction view f (R137): 1 if f = 0, and 160 - tz(f) otherwise. -/
def fracPassesNeeded (f need : Nat) : Prop :=
  (f = 0 ∧ need = 1) ∨ ∃ u tz, f = (2 * u + 1) * 2 ^ tz ∧ need = 160 - tz

/-- The number of passes IRUN needs from integer view v (R138): 1 if v < 10, and the number of decimal digits of v
otherwise. -/
def intPassesNeeded (v need : Nat) : Prop :=
  (v < 10 ∧ need = 1) ∨ (10 ≤ v ∧ 1 ≤ need ∧ 10 ^ (need - 1) ≤ v ∧ v < 10 ^ need)

end Sys2Proof.Machine
end

