-- ==== Sys2Proof/Certificates/Slice0/Obligations.lean ====
section
/-! DEFINITION. The statements for the provers, drawn from the numbered rules of spec/. -/

open Sys2Proof Sys2Proof.Machine

/-! ### Encoding -/

/-- Decode of encode is the command, for every command with an encoding (R82 to R86, R91). -/
def Obligations.DecodeOfEncode : Prop :=
  ∀ i : Instr, i.wellFormed = true → decode (encode i) = .ok i

/-- A word the decoder accepts is the encoding of the command it decodes to, which is well formed: no bit of a legal
word is ignored (R86, R88). -/
def Obligations.EncodeOfDecode : Prop :=
  ∀ (w : Word) (i : Instr), decode w = .ok i → i.wellFormed = true ∧ encode i = w

/-- The opcode map (R85): a word w selects a row's command iff (w AND mask) = match, at most one row matches any word,
and a word that matches no row is illegal. -/
def Obligations.OpcodeMapSelectsCommand : Prop :=
  ∀ w : Word,
    (∀ r ∈ opcodeMap, w &&& r.mask = r.matchWord ↔ decode w = .ok (r.command w)) ∧
    (opcodeMap.filter fun r => r.selects w).length ≤ 1 ∧
    ((∀ r ∈ opcodeMap, w &&& r.mask ≠ r.matchWord) → ∃ e, decode w = .error e)

/-- ILL (R172): the words that decode as ILLEGAL are exactly the four listed kinds, and such a word, accepted in any
state, raises error code 1 and has no other effect. -/
def Obligations.IllegalWordsRaiseIll : Prop :=
  ∀ w : Word,
    ((∃ e, decode w = .error e) ↔
      (bits w.toNat 31 28 ∈ [0x7, 0xB, 0xC, 0xD, 0xE, 0xF] ∨
       (bits w.toNat 31 28 ∈ [0x0, 0x1, 0x3, 0x4, 0x5, 0x6] ∧ bits w.toNat 27 0 ≠ 0) ∨
       (bits w.toNat 31 28 = 0x2 ∧ bits w.toNat 27 16 ≠ 0) ∨
       (bits w.toNat 31 28 ∈ [0x8, 0x9, 0xA] ∧ bits w.toNat 27 8 ≠ 0))) ∧
    ∀ s : State, (∃ e, decode w = .error e) →
      execWord w s = .next { s with block := afterError s.block 1#4,
                                    rsp := some ⟨true, (afterError s.block 1#4).status⟩ }

/-- The worked words of spec/95_test_vectors.md V1 to V24 decode to what they stand for (R86). -/
def Obligations.WorkedWordsDecode : Prop :=
  decode 0x00000000#32 = .ok .nop ∧ decode 0x10000000#32 = .ok .clr ∧
  decode 0x2000FFEA#32 = .ok (.setbit (-22)) ∧ decode 0x20008000#32 = .ok (.setbit (-32768)) ∧
  decode 0x30000000#32 = .ok .fmul10 ∧ decode 0x40000000#32 = .ok .idiv10 ∧ decode 0x50000000#32 = .ok .frun ∧
  decode 0x60000000#32 = .ok .irun ∧ decode 0x80000008#32 = .ok (.rdw 8) ∧ decode 0x90000094#32 = .ok (.rdfd 148) ∧
  decode 0xA0000026#32 = .ok (.rdid 38) ∧ decode 0x20010000#32 = .error .nonzeroField ∧
  decode 0x80000100#32 = .error .nonzeroField ∧ decode 0x70000000#32 = .error .reservedOp

/-! ### The accumulator's views and STATUS -/

/-- V, F and I (R22, R23): V = Σ W[k]·2^(32k), a 288-bit value, with absolute bit j in bit j mod 32 of W[j div 32];
F = V mod 2^160 = Σ W[k]·2^(32k) over k = 0..4; I = V div 2^160 = Σ W[5+k]·2^(32k) over k = 0..3, a 128-bit value;
I + F/2^160 = V/2^160. -/
def Obligations.AccumulatorViews : Prop :=
  ∀ b : Block,
    b.accValue = ∑ k : Fin 9, b.w[k].toNat * 2 ^ (32 * k.val) ∧ b.accValue < 2 ^ 288 ∧
    (∀ j : Fin 288, b.accValue.testBit j.val
      = (b.w[j.val / 32]'(by have := j.isLt; omega)).toNat.testBit (j.val % 32)) ∧
    b.fracValue = b.accValue % 2 ^ 160 ∧
    b.fracValue = ∑ k : Fin 5, (b.w[k.val]'(by have := k.isLt; omega)).toNat * 2 ^ (32 * k.val) ∧
    b.intValue = b.accValue / 2 ^ 160 ∧
    b.intValue = ∑ k : Fin 4, (b.w[5 + k.val]'(by have := k.isLt; omega)).toNat * 2 ^ (32 * k.val) ∧
    b.intValue < 2 ^ 128 ∧
    (b.intValue : ℚ) + (b.fracValue : ℚ) / 2 ^ 160 = (b.accValue : ℚ) / 2 ^ 160

/-- STATUS field by field (R35), with FZ = 1 iff F = 0 and IZ = 1 iff I = 0 (R34). -/
def Obligations.StatusFields : Prop :=
  ∀ b : Block,
    bits b.status.toNat 0 0 = (if b.fracValue = 0 then 1 else 0) ∧
    bits b.status.toNat 1 1 = (if b.intValue = 0 then 1 else 0) ∧
    bits b.status.toNat 2 2 = (if b.err = true then 1 else 0) ∧
    bits b.status.toNat 3 3 = 0 ∧
    bits b.status.toNat 7 4 = b.ecode.toNat ∧
    bits b.status.toNat 11 8 = b.digit.toNat ∧
    bits b.status.toNat 19 12 = b.fcnt.toNat ∧
    bits b.status.toNat 25 20 = b.icnt.toNat ∧
    bits b.status.toNat 31 26 = 0

/-- After reset FZ = IZ = 1 and STATUS = 0x00000003: the spec's own inference in R34, R35 and R42. -/
def Obligations.StatusAfterReset : Prop :=
  State.reset.block.status = 0x00000003#32 ∧ State.reset.block.fz = true ∧ State.reset.block.iz = true

/-! ### Control and scaler commands -/

/-- NOP (R120): its one word is 0x00000000, and every other word with OP = 0x0 is ILLEGAL; it completes from every
state, changes nothing of the block and responds (0, STATUS), after an error too; right after reset the response is
(0, 0x00000003). -/
def Obligations.NopReportsStatus : Prop :=
  (∀ w : Word, decode w = .ok .nop ↔ w = 0x00000000#32) ∧
  (∀ w : Word, bits w.toNat 31 28 = 0x0 → w ≠ 0x00000000#32 → ∃ e, decode w = .error e) ∧
  (∀ s : State, Succeeds .nop s s.block s.block.status) ∧
  Succeeds .nop State.reset State.reset.block 0x00000003#32

/-- CLR (R121): its one word is 0x10000000; from every state it completes with the block at its reset values and the
response (0, 0x00000003), and every RDW k with k in 0..8 then returns 0. -/
def Obligations.ClrClearsTheBlock : Prop :=
  (∀ w : Word, decode w = .ok .clr ↔ w = 0x10000000#32) ∧
  ∀ s : State, ∃ t : State, exec .clr s = .next t ∧ Succeeds .clr s Block.reset 0x00000003#32 ∧
    t.block.accValue = 0 ∧ t.block.digit = 0#4 ∧ t.block.fcnt = 0#8 ∧ t.block.icnt = 0#6 ∧ t.block.err = false ∧
    t.block.ecode = 0#4 ∧ ∀ k ≤ 8, Succeeds (.rdw k) t Block.reset 0#32

/-- SETBIT (R122): its words are 0x20000000 with the position in bits 15:0; for a position in -22..254 it completes from
every state with V OR 2^(pos+33), FZ = 0 after a fraction bit and IZ = 0 after an integer bit, every other field of the
block unchanged, and the response (0, STATUS); outside it raises POS, code 2, and has no other effect. -/
def Obligations.SetbitSetsOneBit : Prop :=
  (∀ (w : Word) (pos : Int), decode w = .ok (.setbit pos) ↔
    (w &&& 0xFFFF0000#32 = 0x20000000#32 ∧ pos = (w.setWidth 16).toInt)) ∧
  ∀ (s : State) (pos : Int),
    (-22 ≤ pos ∧ pos ≤ 254 →
      ∃ w' : Vector Word 9, ({ s.block with w := w' } : Block).accValue = s.block.accValue ||| 2 ^ (pos + 33).toNat ∧
        (pos + 33 < 160 → ({ s.block with w := w' } : Block).fz = false) ∧
        (160 ≤ pos + 33 → ({ s.block with w := w' } : Block).iz = false) ∧
        Succeeds (.setbit pos) s { s.block with w := w' } ({ s.block with w := w' } : Block).status) ∧
    (pos < -22 ∨ 254 < pos → Fails (.setbit pos) s 2#4)

/-- The scaler law (the spec's inference R123): CLR and then SETBITs at legal positions leave V = Σ 2^(q+33) over the distinct positions q,
whatever their order, and no command of the sequence raises an error. -/
def Obligations.ScalerLaw : Prop :=
  ∀ (start : Block) (ps : List Int), (∀ p ∈ ps, -22 ≤ p ∧ p ≤ 254) →
    let r := transactAll start (sendWords (.clr :: ps.map .setbit))
    r.1.accValue = ∑ q ∈ ps.toFinset, 2 ^ (q + 33).toNat ∧ ∀ x ∈ r.2, x.err = false

/-! ### Digit extraction -/

/-- FMUL10 (R130) and the fraction pass law (the spec's inference R134): below 149 digits it completes with 10·F = d·2^160 + F', d in 0..9
in DIGIT and appended to FDIG, FCNT one more, W[5..8] and everything else unchanged, and the response (0, STATUS); at
FCNT = 149 it raises FOVF, code 4, and has no other effect. -/
def Obligations.Fmul10MultipliesFraction : Prop :=
  ∀ s : State,
    (s.block.fcnt ≠ 149#8 → ∃ (w' : Vector Word 9) (d : Digit), d.toNat ≤ 9 ∧
      10 * s.block.fracValue = d.toNat * 2 ^ 160 + ({ s.block with w := w' } : Block).fracValue ∧
      (∀ k : Fin 9, 5 ≤ k.val → w'[k] = s.block.w[k]) ∧
      let b : Block := { s.block with w := w', digit := d, fdig := s.block.fdig ++ [d], fcnt := s.block.fcnt + 1#8 }
      Succeeds .fmul10 s b b.status) ∧
    (s.block.fcnt = 149#8 → Fails .fmul10 s 4#4)

/-- IDIV10 (R131) and the integer pass law (the spec's inference R135): below 39 digits it completes with I = 10·I' + d, d in 0..9 in DIGIT
and appended to IDIG, ICNT one more, W[0..4] and everything else unchanged, and the response (0, STATUS); at ICNT = 39
it raises IOVF, code 5, and has no other effect. -/
def Obligations.Idiv10DividesInteger : Prop :=
  ∀ s : State,
    (s.block.icnt ≠ 39#6 → ∃ (w' : Vector Word 9) (d : Digit), d.toNat ≤ 9 ∧
      s.block.intValue = 10 * ({ s.block with w := w' } : Block).intValue + d.toNat ∧
      (∀ k : Fin 9, k.val ≤ 4 → w'[k] = s.block.w[k]) ∧
      let b : Block := { s.block with w := w', digit := d, idig := s.block.idig ++ [d], icnt := s.block.icnt + 1#6 }
      Succeeds .idiv10 s b b.status) ∧
    (s.block.icnt = 39#6 → Fails .idiv10 s 5#4)

/-- FRUN's length (the spec's inference R137): with need passes due from F and c = FCNT, FRUN completes after exactly need passes with F = 0
and FCNT = c + need if c + need ≤ 149; otherwise it performs 149 - c passes, keeps them, and raises FOVF, code 4. From
FCNT = 0 with the low 11 bits of W[0] zero it always completes. -/
def Obligations.FrunLength : Prop :=
  (∀ (s : State) (need : Nat), fracPassesNeeded s.block.fracValue need →
    (s.block.fcnt.toNat + need ≤ 149 → ∃ b : Block, afterPasses fracPass need s.block = .ok b ∧
      b.fracValue = 0 ∧ b.fcnt.toNat = s.block.fcnt.toNat + need ∧ Succeeds .frun s b b.status) ∧
    (s.block.fcnt.toNat ≤ 149 → 149 < s.block.fcnt.toNat + need → ∃ b : Block,
      afterPasses fracPass (149 - s.block.fcnt.toNat) s.block = .ok b ∧ b.fcnt.toNat = 149 ∧
      FailsFrom .frun s b 4#4)) ∧
  ∀ s : State, s.block.fcnt = 0#8 → s.block.w[0].toNat % 2 ^ 11 = 0 →
    ∃ (b : Block) (n : Nat), 1 ≤ n ∧ n ≤ 149 ∧ afterPasses fracPass n s.block = .ok b ∧ Succeeds .frun s b b.status

/-- IRUN's length (the spec's inference R138): with need passes due from I and c = ICNT, IRUN completes after exactly need passes with I = 0
and ICNT = c + need if c + need ≤ 39; otherwise it performs 39 - c passes, keeps them, and raises IOVF, code 5. From
ICNT = 0 it always completes. -/
def Obligations.IrunLength : Prop :=
  (∀ (s : State) (need : Nat), intPassesNeeded s.block.intValue need →
    need ≤ 39 ∧
    (s.block.icnt.toNat + need ≤ 39 → ∃ b : Block, afterPasses intPass need s.block = .ok b ∧
      b.intValue = 0 ∧ b.icnt.toNat = s.block.icnt.toNat + need ∧ Succeeds .irun s b b.status) ∧
    (s.block.icnt.toNat ≤ 39 → 39 < s.block.icnt.toNat + need → ∃ b : Block,
      afterPasses intPass (39 - s.block.icnt.toNat) s.block = .ok b ∧ b.icnt.toNat = 39 ∧
      FailsFrom .irun s b 5#4)) ∧
  ∀ s : State, s.block.icnt = 0#6 →
    ∃ (b : Block) (n : Nat), 1 ≤ n ∧ n ≤ 39 ∧ afterPasses intPass n s.block = .ok b ∧ Succeeds .irun s b b.status

/-- A run is do-while (R132, R133): a run that ends without an error has made at least one pass and leaves its view
zero, with its flag set. -/
def Obligations.RunsEndAtZero : Prop :=
  ∀ s t : State,
    (exec .frun s = .next t → errorResponse t = false →
      t.block.fracValue = 0 ∧ t.block.fz = true ∧ s.block.fdig.length < t.block.fdig.length) ∧
    (exec .irun s = .next t → errorResponse t = false →
      t.block.intValue = 0 ∧ t.block.iz = true ∧ s.block.idig.length < t.block.idig.length)

/-- Exactness (the spec's inference R139): from empty stores, FRUN and IRUN that both succeed leave digits that write F0/2^160 and I0
exactly; the last fraction digit is 5 if F0 ≠ 0, and no leading zero is emitted if I0 ≠ 0. -/
def Obligations.DigitsAreExact : Prop :=
  ∀ s t u : State, s.block.fcnt = 0#8 → s.block.icnt = 0#6 → s.block.fdig = [] → s.block.idig = [] →
    exec .frun s = .next t → errorResponse t = false → exec .irun t = .next u → errorResponse u = false →
    fdigValue u.block = (s.block.fracValue : ℚ) / 2 ^ 160 ∧ idigValue u.block = s.block.intValue ∧
    u.block.fdig.length = u.block.fcnt.toNat ∧ u.block.idig.length = u.block.icnt.toNat ∧
    (s.block.fracValue ≠ 0 → u.block.fdig.getLast? = some 5#4) ∧ (s.block.fracValue = 0 → u.block.fdig = [0#4]) ∧
    (s.block.intValue ≠ 0 → u.block.idig.getLast? ≠ some 0#4) ∧ (s.block.intValue = 0 → u.block.idig = [0#4])

/-- What the fraction commands read and write, and the integer commands (the spec's inference R140): FMUL10 and FRUN leave W[5..8], ICNT and
IDIG alone and their effect does not depend on them; IDIV10 and IRUN leave W[0..4], FCNT and FDIG alone and do not
depend on them. The port's state is unchanged but for the response. -/
def Obligations.FractionAndIntegerIndependent : Prop :=
  (∀ i ∈ [Instr.fmul10, Instr.frun], ∀ s t : State, exec i s = .next t →
    t = { s with block := t.block, rsp := t.rsp } ∧ (∀ k : Fin 9, 5 ≤ k.val → t.block.w[k] = s.block.w[k]) ∧
    t.block.icnt = s.block.icnt ∧ t.block.idig = s.block.idig ∧
    (errorResponse t = false → t.block.err = s.block.err ∧ t.block.ecode = s.block.ecode) ∧
    ∀ s' t' : State, exec i s' = .next t' → (∀ k : Fin 9, k.val ≤ 4 → s'.block.w[k] = s.block.w[k]) →
      s'.block.fcnt = s.block.fcnt → s'.block.fdig = s.block.fdig →
      (∀ k : Fin 9, k.val ≤ 4 → t'.block.w[k] = t.block.w[k]) ∧ t'.block.fcnt = t.block.fcnt ∧
      t'.block.fdig = t.block.fdig ∧ errorResponse t' = errorResponse t ∧
      (s'.block.digit = s.block.digit → t'.block.digit = t.block.digit)) ∧
  (∀ i ∈ [Instr.idiv10, Instr.irun], ∀ s t : State, exec i s = .next t →
    t = { s with block := t.block, rsp := t.rsp } ∧ (∀ k : Fin 9, k.val ≤ 4 → t.block.w[k] = s.block.w[k]) ∧
    t.block.fcnt = s.block.fcnt ∧ t.block.fdig = s.block.fdig ∧
    (errorResponse t = false → t.block.err = s.block.err ∧ t.block.ecode = s.block.ecode) ∧
    ∀ s' t' : State, exec i s' = .next t' → (∀ k : Fin 9, 5 ≤ k.val → s'.block.w[k] = s.block.w[k]) →
      s'.block.icnt = s.block.icnt → s'.block.idig = s.block.idig →
      (∀ k : Fin 9, 5 ≤ k.val → t'.block.w[k] = t.block.w[k]) ∧ t'.block.icnt = t.block.icnt ∧
      t'.block.idig = t.block.idig ∧ errorResponse t' = errorResponse t ∧
      (s'.block.digit = s.block.digit → t'.block.digit = t.block.digit))

/-- FRUN then IRUN and IRUN then FRUN reach the same block in every field but DIGIT (the spec's inference R140), with one corner apart: where
both runs fail and no error stood before, each order keeps the code of the run that failed first in it (R178), so ECODE
is 4 in the one and 5 in the other and every other field but DIGIT is the same. -/
def Obligations.RunsCommute : Prop :=
  ∀ s a ab b ba : State, exec .frun s = .next a → exec .irun a = .next ab → exec .irun s = .next b →
    exec .frun b = .next ba →
    { ab.block with digit := 0#4, ecode := 0#4 } = { ba.block with digit := 0#4, ecode := 0#4 } ∧
    (if errorResponse a = true ∧ errorResponse ab = true ∧ s.block.err = false then
      ab.block.ecode = 4#4 ∧ ba.block.ecode = 5#4
    else ab.block.ecode = ba.block.ecode)

/-! ### Read-out -/

/-- RDW k (R150): for k in 0..8 it completes from every state, changes nothing of the block and responds with the whole
word, bits 32k+31 down to 32k of V; for a larger k it raises IDX, code 3, and has no other effect. -/
def Obligations.RdwReadsWord : Prop :=
  (∀ (w : Word) (k : Nat), decode w = .ok (.rdw k) ↔
    (w &&& 0xFFFFFF00#32 = 0x80000000#32 ∧ k = (w.setWidth 8).toNat)) ∧
  ∀ (s : State) (k : Nat),
    (k ≤ 8 → Succeeds (.rdw k) s s.block (BitVec.ofNat 32 (s.block.accValue / 2 ^ (32 * k)))) ∧
    (8 < k → Fails (.rdw k) s 3#4)

/-- RDFD k (R151): for k in 0..148 it completes from every state and changes nothing of the block; below FCNT the data
is 0x100 OR FDIG[k], at or past FCNT it is 0; for a larger k it raises IDX, code 3, and has no other effect. -/
def Obligations.RdfdReadsDigit : Prop :=
  (∀ (w : Word) (k : Nat), decode w = .ok (.rdfd k) ↔
    (w &&& 0xFFFFFF00#32 = 0x90000000#32 ∧ k = (w.setWidth 8).toNat)) ∧
  ∀ (s : State) (k : Nat),
    (k < 149 → k < s.block.fcnt.toNat → ∀ h : k < s.block.fdig.length,
      Succeeds (.rdfd k) s s.block (0x100#32 ||| (s.block.fdig[k]).setWidth 32)) ∧
    (k < 149 → s.block.fcnt.toNat ≤ k → Succeeds (.rdfd k) s s.block 0#32) ∧
    (149 ≤ k → Fails (.rdfd k) s 3#4)

/-- RDID k (R152): for k in 0..38 it completes from every state and changes nothing of the block; below ICNT the data is
0x100 OR IDIG[k], at or past ICNT it is 0; for a larger k it raises IDX, code 3, and has no other effect. -/
def Obligations.RdidReadsDigit : Prop :=
  (∀ (w : Word) (k : Nat), decode w = .ok (.rdid k) ↔
    (w &&& 0xFFFFFF00#32 = 0xA0000000#32 ∧ k = (w.setWidth 8).toNat)) ∧
  ∀ (s : State) (k : Nat),
    (k < 39 → k < s.block.icnt.toNat → ∀ h : k < s.block.idig.length,
      Succeeds (.rdid k) s s.block (0x100#32 ||| (s.block.idig[k]).setWidth 32)) ∧
    (k < 39 → s.block.icnt.toNat ≤ k → Succeeds (.rdid k) s s.block 0#32) ∧
    (39 ≤ k → Fails (.rdid k) s 3#4)

/-- Reads have no side effects (R56): NOP, RDW, RDFD and RDID that succeed leave the block as it was and give the same
response when issued again; one that raises an error changes only ERR and ECODE. -/
def Obligations.ReadsHaveNoSideEffects : Prop :=
  ∀ (i : Instr), (i = .nop ∨ ∃ k, i = .rdw k ∨ i = .rdfd k ∨ i = .rdid k) → ∀ s t : State, exec i s = .next t →
    (errorResponse t = false → t.block = s.block ∧ ∀ u : State, exec i t = .next u → u.block = s.block ∧ u.rsp = t.rsp) ∧
    t.block = { s.block with err := t.block.err, ecode := t.block.ecode }

/-! ### Errors -/

/-- When each command raises an error, and when not (R173 to R176, R179): rsp_err = 1 exactly when SETBIT's position is
outside -22..254, a read index is outside its space, or a pass is due on a full store; NOP and CLR never raise one. For
FRUN and IRUN, from a legal count, that is exactly when the passes due from the view exceed the room left in the store
(the spec's inferences R137 and R138), and the store is then full. -/
def Obligations.ErrorExactlyWhen : Prop :=
  ∀ s t : State,
    (exec .nop s = .next t → errorResponse t = false) ∧ (exec .clr s = .next t → errorResponse t = false) ∧
    (∀ pos, exec (.setbit pos) s = .next t → (errorResponse t = true ↔ pos < -22 ∨ 254 < pos)) ∧
    (∀ k, exec (.rdw k) s = .next t → (errorResponse t = true ↔ 8 < k)) ∧
    (∀ k, exec (.rdfd k) s = .next t → (errorResponse t = true ↔ 149 ≤ k)) ∧
    (∀ k, exec (.rdid k) s = .next t → (errorResponse t = true ↔ 39 ≤ k)) ∧
    (exec .fmul10 s = .next t → (errorResponse t = true ↔ s.block.fcnt.toNat = 149)) ∧
    (exec .idiv10 s = .next t → (errorResponse t = true ↔ s.block.icnt.toNat = 39)) ∧
    (exec .frun s = .next t → errorResponse t = true → t.block.fcnt.toNat = 149) ∧
    (exec .irun s = .next t → errorResponse t = true → t.block.icnt.toNat = 39) ∧
    (∀ need, fracPassesNeeded s.block.fracValue need → s.block.fcnt.toNat ≤ 149 → exec .frun s = .next t →
      (errorResponse t = true ↔ 149 < s.block.fcnt.toNat + need)) ∧
    (∀ need, intPassesNeeded s.block.intValue need → s.block.icnt.toNat ≤ 39 → exec .irun s = .next t →
      (errorResponse t = true ↔ 39 < s.block.icnt.toNat + need))

/-- ERR is sticky and ECODE keeps the first error (R178): a command that raises an error answers rsp_err = 1 and leaves
ERR = 1, with its own code in ECODE if ERR was 0 and ECODE as it was if ERR was 1; a command that raises none, other
than CLR, leaves both as they were. The same for every command word, an ILLEGAL one among them. -/
def Obligations.FirstErrorIsKept : Prop :=
  (∀ (i : Instr) (s t : State), exec i s = .next t →
    (errorResponse t = false → i ≠ .clr → t.block.err = s.block.err ∧ t.block.ecode = s.block.ecode) ∧
    (errorResponse t = true → t.block.err = true ∧ (s.block.err = true → t.block.ecode = s.block.ecode) ∧
      (s.block.err = false → t.block.ecode =
        match i with
        | .setbit _ => 2#4
        | .rdw _ | .rdfd _ | .rdid _ => 3#4
        | .fmul10 | .frun => 4#4
        | .idiv10 | .irun => 5#4
        | .nop | .clr => 0#4))) ∧
  ∀ (w : Word) (s t : State), execWord w s = .next t →
    (∀ i, decode w = .ok i → exec i s = .next t) ∧
    ((∃ e, decode w = .error e) → errorResponse t = true ∧ t.block.err = true ∧
      t.block.ecode = if s.block.err = true then s.block.ecode else 1#4)

/-- ERR is a sticky flag (R32): any command that raises an error sets it, an ILLEGAL word too, and only CLR and reset
clear it; ECODE stands with it. -/
def Obligations.OnlyClrClearsErrors : Prop :=
  (∀ (i : Instr) (s t : State), exec i s = .next t → (errorResponse t = true → t.block.err = true) ∧
    (i ≠ .clr → s.block.err = true → t.block.err = true ∧ t.block.ecode = s.block.ecode) ∧
    (i = .clr → t.block.err = false ∧ t.block.ecode = 0#4)) ∧
  (∀ (w : Word) (s t : State), (∃ e, decode w = .error e) → execWord w s = .next t →
    t.block.err = true ∧ (s.block.err = true → t.block.ecode = s.block.ecode)) ∧
  ∀ (p : Pins) (c c' : CycleState), p.rstN = false → clockEdge p c = .next c' →
    c'.machine.block.err = false ∧ c'.machine.block.ecode = 0#4

/-- Only CLR and reset clear ERR, over every step and every clock edge (R32): a step of any kind (a command, taking a
response, waiting, no move) leaves a standing ERR and its ECODE as they are, unless its move is a reset or an accepted
word that decodes to CLR; and so does an edge with rst_n = 1, unless the command executing or accepted at it is CLR. The
accepted word is the offered one, or the very word drawn where the host has not held its offer (R69). The host's moves, the free word of R69 and the monitor are the model's choice (log entries 4, 6 and 10). -/
def Obligations.EveryStepKeepsErrors : Prop :=
  (∀ s t : State, step s = .next t → s.block.err = true →
    (t.block.err = true ∧ t.block.ecode = s.block.ecode) ∨ (∃ rest, s.moves = .reset :: rest) ∨
    ∃ (w : Word) (rest : List HostMove), decode w = .ok .clr ∧ s.ready = true ∧
      (s.moves = .command w :: rest ∨
        (s.moves = .unheldCommand :: rest ∧ w = Config.undeterminedWord s.draws))) ∧
  ∀ (p : Pins) (c c' : CycleState), p.rstN = true → clockEdge p c = .next c' → c.machine.block.err = true →
    (c'.machine.block.err = true ∧ c'.machine.block.ecode = c.machine.block.ecode) ∨
    ∃ w : Word, decode w = .ok .clr ∧ ((∃ left, c.running = some ⟨w, left⟩) ∨
      (cmdReady p c = true ∧ p.cmdValid = true ∧
        w = if dutyKept p c.offer = true then p.cmdData else Config.undeterminedWord c.machine.draws))

/-- Errors are precise (the spec's inference R182 from R177): the block after a failing command is the block before it,
or for FRUN and IRUN the block after the last completed pass, with only ERR and ECODE changed; the response carries
STATUS after the update. The same for an ILLEGAL word. -/
def Obligations.ErrorsArePrecise : Prop :=
  (∀ (i : Instr) (s t : State), exec i s = .next t → errorResponse t = true →
    t.rsp = some ⟨true, t.block.status⟩ ∧
    ∃ b : Block, t.block = { b with err := t.block.err, ecode := t.block.ecode } ∧
      ((i ≠ .frun ∧ i ≠ .irun ∧ b = s.block) ∨
        (i = .frun ∧ ∃ n, afterPasses fracPass n s.block = .ok b ∧ fracPass b = .error .fovf) ∨
        (i = .irun ∧ ∃ n, afterPasses intPass n s.block = .ok b ∧ intPass b = .error .iovf))) ∧
  ∀ (w : Word) (s t : State), (∃ e, decode w = .error e) → execWord w s = .next t →
    t.rsp = some ⟨true, t.block.status⟩ ∧ t.block = { s.block with err := t.block.err, ecode := t.block.ecode }

/-- Which commands write the accumulator (R21): NOP and the reads write no word; FMUL10 and FRUN at most W[0] to W[4];
IDIV10 and IRUN at most W[5] to W[8]; SETBIT at most the one bit it addresses. -/
def Obligations.AccumulatorWriters : Prop :=
  ∀ (i : Instr) (s t : State), exec i s = .next t →
    match i with
    | .nop | .rdw _ | .rdfd _ | .rdid _ => t.block.w = s.block.w
    | .clr => ∀ k : Fin 9, t.block.w[k] = 0#32
    | .setbit pos => ∀ j : Nat, (j : Int) ≠ pos + 33 → t.block.accValue.testBit j = s.block.accValue.testBit j
    | .fmul10 | .frun => ∀ k : Fin 9, 5 ≤ k.val → t.block.w[k] = s.block.w[k]
    | .idiv10 | .irun => ∀ k : Fin 9, k.val ≤ 4 → t.block.w[k] = s.block.w[k]

/-- Which commands write the digit state (R26 to R30): CLR empties the stores; a fraction command only appends to FDIG,
an integer command only to IDIG, each appended digit counted, and DIGIT is the last digit appended; every other command
leaves DIGIT, the counts and the stores as they were. -/
def Obligations.DigitStateWriters : Prop :=
  ∀ (i : Instr) (s t : State), exec i s = .next t →
    match i with
    | .nop | .rdw _ | .rdfd _ | .rdid _ | .setbit _ =>
      t.block.digit = s.block.digit ∧ t.block.fcnt = s.block.fcnt ∧ t.block.icnt = s.block.icnt ∧
      t.block.fdig = s.block.fdig ∧ t.block.idig = s.block.idig
    | .clr => t.block.digit = 0#4 ∧ t.block.fcnt = 0#8 ∧ t.block.icnt = 0#6 ∧ t.block.fdig = [] ∧ t.block.idig = []
    | .fmul10 | .frun => ∃ ds : List Digit, t.block.fdig = s.block.fdig ++ ds ∧
      t.block.fcnt = s.block.fcnt + BitVec.ofNat 8 ds.length ∧ t.block.digit = ds.getLastD s.block.digit ∧
      (∀ d ∈ ds, d.toNat ≤ 9) ∧ t.block.icnt = s.block.icnt ∧ t.block.idig = s.block.idig
    | .idiv10 | .irun => ∃ ds : List Digit, t.block.idig = s.block.idig ++ ds ∧
      t.block.icnt = s.block.icnt + BitVec.ofNat 6 ds.length ∧ t.block.digit = ds.getLastD s.block.digit ∧
      (∀ d ∈ ds, d.toNat ≤ 9) ∧ t.block.fcnt = s.block.fcnt ∧ t.block.fdig = s.block.fdig

/-! ### Invariants and reset -/

/-- Every step keeps the invariant (the spec's inferences R25, R31 and R43): the ranges of FCNT, ICNT and ECODE, ERR and ECODE zero together, the
eleven zero low bits of W[0], digits in 0..9, and the stores' lengths equal to their counts. -/
def Obligations.StepKeepsInvariant : Prop :=
  ∀ s t : State, s.Inv → step s = .next t → t.Inv

/-- The state after reset meets the invariant. -/
def Obligations.ResetMeetsInvariant : Prop := State.reset.Inv

/-- Every clock edge keeps the cycle-level invariant: the ranges of the spec's inference R43, and at most one command outstanding (R62). -/
def Obligations.ClockEdgeKeepsInvariant : Prop :=
  ∀ (p : Pins) (c c' : CycleState), c.Inv → clockEdge p c = .next c' → c'.Inv

/-- Reset (R202, R42, R205): the host's reset move, at any state, a waiting response or an error standing too, puts every
field into its reset value and discards the response; the block is then what CLR leaves, with STATUS 0x00000003. The
list of moves and the list of taken responses, emptied for a new run, are the model's choice (log entry 4). -/
def Obligations.ResetMoveResets : Prop :=
  ∀ (s : State) (rest : List HostMove), s.moves = .reset :: rest →
    ∃ t : State, step s = .next t ∧ t.rsp = none ∧ t.up = true ∧ t.moves = rest ∧ t.taken = [] ∧
      (∀ k : Fin 9, t.block.w[k] = 0#32) ∧ t.block.digit = 0#4 ∧ t.block.fcnt = 0#8 ∧ t.block.icnt = 0#6 ∧
      t.block.err = false ∧ t.block.ecode = 0#4 ∧ t.block.status = 0x00000003#32 ∧
      ∀ b : Block, t.block = (transact b 0x10000000#32).1

/-! ### The step and the host -/

/-- A step runs the decoded command (R60, R63): when the host offers a word to a block that has been reset and has no
response waiting, the step is that word's execution after the host's move is used up, and exec of i if the word decodes
to i. That the host's moves stand as a list in the state is the model's choice (log entry 4). -/
def Obligations.StepRunsDecodedCommand : Prop :=
  ∀ (s : State) (w : Word) (rest : List HostMove), s.up = true → s.rsp = none → s.moves = .command w :: rest →
    step s = execWord w { s with moves := rest } ∧
    ∀ i : Instr, decode w = .ok i → step s = exec i { s with moves := rest }

/-- The machine gives no meaning in one case only (R204, R63): the host's next move is not a reset and no reset has been
given since power-up. In every other case the step answers a next state, and a machine that has been reset stays so.
How a host run is refused is the model's choice (log entries 4 and 7). -/
def Obligations.RefusedOnlyBeforeFirstReset : Prop :=
  ∀ s : State,
    (step s = .refused .beforeFirstReset ↔ s.up = false ∧ ∃ m rest, s.moves = m :: rest ∧ m ≠ .reset) ∧
    ((s.up = true ∨ s.moves = [] ∨ ∃ rest, s.moves = .reset :: rest) →
      ∃ t, step s = .next t ∧ (s.up = true → t.up = true))

/-- The handshake (R61, R62): while a response waits, no command is accepted and the response is held unchanged, until
the host takes it; then the block is ready and the response is the host's. The host's moves and its list of responses
are the model's choice, and so is the step that waits (log entries 4 and 8). -/
def Obligations.ResponseIsHeldUntilTaken : Prop :=
  ∀ (s : State) (r : Response) (rest : List HostMove), s.up = true → s.rsp = some r →
    (∀ w, s.moves = .command w :: rest → step s = .next s) ∧
    (s.moves = .unheldCommand :: rest → step s = .next s) ∧
    (s.moves = .take :: rest →
      ∃ t, step s = .next t ∧ t.rsp = none ∧ t.ready = true ∧ t.taken = s.taken ++ [r] ∧ t.block = s.block ∧
        t.moves = rest)

/-- A word that was not held until acceptance may be any word (R69): whatever the free value is, the block runs one
accepted word, as it would had the host held it, and answers one response. The move that offers such a word is the
model's choice (log entries 4 and 6). -/
def Obligations.UnheldWordRunsSomeWord : Prop :=
  ∀ (s : State) (rest : List HostMove), s.up = true → s.rsp = none → s.moves = .unheldCommand :: rest →
    ∃ (w : Word) (t : State), step s = .next t ∧ t.block = (transact s.block w).1 ∧
      t.rsp = some (transact s.block w).2 ∧ t.moves = rest ∧ t.taken = s.taken

/-- Each accepted command gives exactly one response and changes nothing of the machine but its block (R63, R212): exec
is Exec on the architectural state, with the port's other state unchanged. -/
def Obligations.ExecIsExecOnBlock : Prop :=
  ∀ (i : Instr) (s : State), i.wellFormed = true →
    exec i s = .next { s with block := (transact s.block (encode i)).1, rsp := some (transact s.block (encode i)).2 }

/-- A host run is the fold of Exec (R63, R211): from a machine that has been reset and has no response waiting, the moves
that send w1..wn and take each response lead, in 2n steps, to the block S_n of the fold, with the responses taken in
command order (R64). The list of moves and the list of taken responses are the model's choice (log entry 4). -/
def Obligations.HostRunIsFoldOfExec : Prop :=
  ∀ (ws : List Word) (s : State) (rest : List HostMove), s.up = true → s.rsp = none →
    s.moves = hostRun ws ++ rest →
    Host.Core.run core (2 * ws.length) s =
      .next { s with block := (transactAll s.block ws).1, moves := rest, taken := s.taken ++ (transactAll s.block ws).2 }

/-! ### The cycle level -/

/-- Latencies are positive (R8, R61): every accepted word, in a state that meets the invariant, takes at least one cycle;
FRUN at most 149 fraction passes and one simple latency, IRUN at most 39 integer passes and one (R209). The three latency
parameters are open (log entry 9). -/
def Obligations.LatencyBounds : Prop :=
  ∀ (w : Word) (b : Block), b.Inv → 1 ≤ latency w b ∧
    (decode w = .ok .frun → latency w b ≤ 149 * Config.latFpass + Config.latSimple) ∧
    (decode w = .ok .irun → latency w b ≤ 39 * Config.latIpass + Config.latSimple) ∧
    (decode w = .ok .frun → b.fcnt = 0#8 → latency w b ≤ 149 * Config.latFpass) ∧
    (decode w = .ok .irun → b.icnt = 0#6 → latency w b ≤ 39 * Config.latIpass)

/-- The latency of every word, row by row (R209): LAT_SIMPLE for NOP, CLR, SETBIT, the reads, and for every word that
raises an error, an ILLEGAL one too, but for FRUN and IRUN; LAT_FPASS for FMUL10, LAT_IPASS for IDIV10; for a run of n
passes n times the pass latency, and LAT_SIMPLE more if it ends in an error. The three parameters are open (log
entry 9). -/
def Obligations.LatencyRows : Prop :=
  ∀ (w : Word) (b : Block),
    (∀ e, decode w = .error e → latency w b = Config.latSimple) ∧
    (∀ i, decode w = .ok i → i ≠ .fmul10 → i ≠ .idiv10 → i ≠ .frun → i ≠ .irun → latency w b = Config.latSimple) ∧
    ((transact b w).2.err = true → decode w ≠ .ok .frun → decode w ≠ .ok .irun → latency w b = Config.latSimple) ∧
    (decode w = .ok .fmul10 → (transact b w).2.err = false → latency w b = Config.latFpass) ∧
    (decode w = .ok .idiv10 → (transact b w).2.err = false → latency w b = Config.latIpass) ∧
    (decode w = .ok .frun → ∃ (n : Nat) (b' : Block), afterPasses fracPass n b = .ok b' ∧
      (((transact b w).2.err = false ∧ (transact b w).1 = b' ∧ latency w b = n * Config.latFpass) ∨
       ((transact b w).2.err = true ∧ (transact b w).1 = afterError b' 4#4 ∧
         latency w b = n * Config.latFpass + Config.latSimple))) ∧
    (decode w = .ok .irun → ∃ (n : Nat) (b' : Block), afterPasses intPass n b = .ok b' ∧
      (((transact b w).2.err = false ∧ (transact b w).1 = b' ∧ latency w b = n * Config.latIpass) ∨
       ((transact b w).2.err = true ∧ (transact b w).1 = afterError b' 5#4 ∧
         latency w b = n * Config.latIpass + Config.latSimple)))

/-- The cycle level refines the transaction level (R6, R60, R61): in a block with no command executing and no response
waiting, the edge that accepts w, offered by a host that has kept its duty up to that edge (R69: offered first at it, or
held since an earlier edge), starts a run of w. When an effect shows inside a command's latency, and the monitor of the
host's duty, are the model's choice (log entries 9 and 10). -/
def Obligations.CycleLevelRefinesExec : Prop :=
  ∀ (c : CycleState) (w : Word) (p : Pins), c.machine.up = true → c.running = none → c.machine.rsp = none →
    p.rstN = true → p.cmdValid = true → p.cmdData = w → dutyKept p c.offer = true →
    cmdReady p c = true ∧ RunsWord w p c

/-- A broken duty at the cycle level (R69): the edge that accepts a command from a host that has not held its offer
starts a run of some word, whatever the free value is. When an effect shows inside a command's latency, the free word
and the monitor are the model's choice (log entries 6, 9 and 10). -/
def Obligations.BrokenDutyRunsSomeWord : Prop :=
  ∀ (c : CycleState) (p : Pins), c.machine.up = true → c.running = none → c.machine.rsp = none →
    p.rstN = true → p.cmdValid = true → dutyKept p c.offer = false →
    cmdReady p c = true ∧ ∃ w : Word, RunsWord w p c

/-- The monitor of the host's duty (R69; the monitor is the model's choice, log entry 10). Over edges at which nothing is
accepted, from no offer: nothing is offered iff cmd_valid was 0 throughout, and w has been held iff cmd_valid was 0 up to
some edge and from it on every edge offered w. A reset edge and an accepting edge end the offer, every other edge of a
block that has been reset is one at which nothing is accepted, and before the first reset the monitor stands still. -/
def Obligations.DutyMonitorFollowsTheOffer : Prop :=
  (∀ ps : List Pins,
    let o := ps.foldl (fun o p => nextOffer p o) .idle
    (o = .idle ↔ ∀ p ∈ ps, p.cmdValid = false) ∧
    ∀ w : Word, o = .held w ↔ ∃ before offered : List Pins, ps = before ++ offered ∧ offered ≠ [] ∧
      (∀ p ∈ before, p.cmdValid = false) ∧ ∀ p ∈ offered, p.cmdValid = true ∧ p.cmdData = w) ∧
  ∀ (p : Pins) (c c' : CycleState), clockEdge p c = .next c' →
    c'.offer =
      if p.rstN = false then .idle
      else if c.machine.up = false then c.offer
      else if cmdReady p c = true ∧ p.cmdValid = true then .idle
      else nextOffer p c.offer

/-- An idle block keeps all its state (R191, log entry 16): at an edge with rst_n = 1 and cmd_valid = 0, with no command
executing and no response waiting, the machine stays as it is and ready; and a step without a move of the host changes
nothing. -/
def Obligations.IdleKeepsTheState : Prop :=
  (∀ s : State, s.moves = [] → step s = .next s) ∧
  ∀ (p : Pins) (c : CycleState), p.rstN = true → p.cmdValid = false → c.machine.up = true → c.running = none →
    c.machine.rsp = none →
    ∃ c', clockEdge p c = .next c' ∧ c'.machine = c.machine ∧ c'.running = none ∧ ∀ q : Pins, q.rstN = true →
      cmdReady q c' = true

/-- A reset edge (R200, R202): one edge with rst_n = 0, from any state, before the first reset or in the middle of a
command too, puts every field into its reset value; no command executes after it and no response waits. -/
def Obligations.ResetEdgeResets : Prop :=
  ∀ (p : Pins) (c : CycleState), p.rstN = false →
    ∃ c', clockEdge p c = .next c' ∧ c'.running = none ∧ c'.machine.rsp = none ∧ c'.machine.block = Block.reset ∧
      (∀ k : Fin 9, c'.machine.block.w[k] = 0#32) ∧ c'.machine.block.digit = 0#4 ∧ c'.machine.block.fcnt = 0#8 ∧
      c'.machine.block.icnt = 0#6 ∧ c'.machine.block.err = false ∧ c'.machine.block.ecode = 0#4

/-- The outputs around a reset edge (R201, R203): during reset cmd_ready = 0 and rsp_valid = 0, and in the next cycle with
rst_n = 1 cmd_ready = 1. That cmd_ready is 1 in the very next such cycle is the model's reading of R203 (log entry 20),
and that R201 gives the outputs during a reset before the first reset edge is its choice between R201 and R204 (log
entry 21). -/
def Obligations.ResetEdgeOutputs : Prop :=
  ∀ (p : Pins) (c : CycleState), p.rstN = false →
    outputs p c = some ⟨false, none⟩ ∧
    ∃ c', clockEdge p c = .next c' ∧ ∀ q : Pins, q.rstN = true → outputs q c' = some ⟨true, none⟩

/-- A response is held until taken, and nothing is accepted meanwhile (R61, R62, R208): at an edge with rst_n = 1 while a
response waits, rsp_valid, rsp_err and rsp_data stay as they are if rsp_ready = 0, and rsp_valid is 0 after it if
rsp_ready = 1. The list of taken responses is the model's choice (log entry 4). -/
def Obligations.CycleResponseHandshake : Prop :=
  ∀ (p : Pins) (c : CycleState) (r : Response), p.rstN = true → c.machine.up = true → c.machine.rsp = some r →
    cmdReady p c = false ∧
    ∃ c', clockEdge p c = .next c' ∧ c'.machine.block = c.machine.block ∧ c'.running = c.running ∧
      (p.rspReady = false → c'.machine.rsp = some r) ∧
      (p.rspReady = true → c'.machine.rsp = none ∧ c'.machine.taken = c.machine.taken ++ [r])

/-! ### The host side -/

/-- Positions(b) (the spec's inference R96 from R94): for a finite pattern every position lies in -22..254, between e - 23
and e for a Normal, whose first position is e, and between -22 and 0 for a Subnormal; the list is strictly decreasing, it
has at most 24 entries (R95), and no SETBIT of it raises POS. -/
def Obligations.PositionsInRange : Prop :=
  ∀ b : Word, floatFinite b = true →
    (∀ p ∈ floatPositions b, -22 ≤ p ∧ p ≤ 254) ∧ (floatPositions b).Pairwise (· > ·) ∧ (floatPositions b).length ≤ 24 ∧
    (floatExponent b ≠ 0 → (floatPositions b).head? = some (floatExponent b : Int) ∧
      ∀ p ∈ floatPositions b, (floatExponent b : Int) - 23 ≤ p ∧ p ≤ (floatExponent b : Int)) ∧
    (floatExponent b = 0 → ∀ p ∈ floatPositions b, p ≤ 0) ∧
    ∀ p ∈ floatPositions b, ∀ s : State, ∃ (b' : Block) (data : Word), Succeeds (.setbit p) s b' data

/-- LOADF loads the magnitude (the spec's inferences R24 and R97, with value(b) from general knowledge, log entry 15): after LOADF b for a finite b, issued from any state, V = |value(b)| × 2^160
exactly, and no command of it raises an error. -/
def Obligations.LoadfLoadsMagnitude : Prop :=
  ∀ (b : Word) (start : Block) (is : List Instr), floatFinite b = true → loadf b = .ok is →
    let r := transactAll start (sendWords is)
    (r.1.accValue : ℚ) = floatMagnitude b * 2 ^ 160 ∧ ∀ x ∈ r.2, x.err = false

/-- The conversion law (the spec's inference R155, with value(b) and the character codes from general knowledge, log
entry 15): for every finite pattern b, CONVERT b from any state raises no error and renders the exact
decimal expansion of value(b): the integer digits write floor|value| without leading zeros or are the single digit 0,
the fraction digits write frac|value| to its last nonzero digit or are the single digit 0, at most 39 and 149 of them,
after a '-' iff the sign bit is set. -/
def Obligations.ConversionIsExact : Prop :=
  ∀ (b : Word) (start : Block), floatFinite b = true →
    (∀ x ∈ (conversion b start).2.1, x.err = false) ∧
    ∃ ids fds : List Nat, (conversion b start).2.2 =
        (if floatSign b = true then ['-'] else []) ++ ids.map (fun d => Char.ofNat (0x30 + d)) ++ ['.']
          ++ fds.map (fun d => Char.ofNat (0x30 + d)) ∧
      (∀ d ∈ ids, d ≤ 9) ∧ (∀ d ∈ fds, d ≤ 9) ∧ ids.length ≤ 39 ∧ fds.length ≤ 149 ∧
      (ids = [0] ∨ ids.head? ≠ some 0) ∧ (fds = [0] ∨ fds.getLast? ≠ some 0) ∧ ids ≠ [] ∧ fds ≠ [] ∧
      (Nat.ofDigits 10 ids.reverse : ℤ) = ⌊floatMagnitude b⌋ ∧
      fds.foldr (fun d acc => ((d : ℚ) + acc) / 10) 0 = Int.fract (floatMagnitude b)

/-- No hidden state (the spec's inference R156): the responses, the end state and the text of CONVERT b, issued from any state, depend on b
alone. -/
def Obligations.NoHiddenState : Prop :=
  ∀ (b : Word) (start start' : Block), floatFinite b = true → conversion b start = conversion b start'

/-- Special values never reach the block (R154, R95): infinity renders inf or -inf by its sign, a NaN renders nan whatever
its sign, and no command is sent for either. -/
def Obligations.SpecialValuesBypassTheBlock : Prop :=
  ∀ (b : Word) (start : Block), floatExponent b = 0xFF →
    (∃ c, convert b = .error c) ∧ (conversion b start).1 = start ∧ (conversion b start).2.1 = [] ∧
    (conversion b start).2.2 =
      if floatMantissa b ≠ 0 then ['n', 'a', 'n']
      else if floatSign b = true then ['-', 'i', 'n', 'f'] else ['i', 'n', 'f']

/-- The assembler and the disassembler agree (R91): the text printed for a legal word assembles to that word. -/
def Obligations.AssembleOfDisassemble : Prop :=
  ∀ (w : Word) (i : Instr), decode w = .ok i → assemble (disassemble w) = .ok [w]
end

