-- ==== Sys2Proof/Laws/State.lean ====
section
/-! SUPPORT. One lemma for each field and each update of the state, true by rfl. -/

namespace Sys2Proof.Machine

@[simp] theorem Block.setAccBit_w (b : Block) (j : Fin 288) : (b.setAccBit j).w = b.w.set (j.val / 32) (b.w[j.val / 32]'(by have := j.isLt; omega) ||| BitVec.ofNat 32 (2 ^ (j.val % 32)))
      (by have := j.isLt; omega) := rfl
@[simp] theorem Block.setAccBit_digit (b : Block) (j : Fin 288) : (b.setAccBit j).digit = b.digit := rfl
@[simp] theorem Block.setAccBit_fcnt (b : Block) (j : Fin 288) : (b.setAccBit j).fcnt = b.fcnt := rfl
@[simp] theorem Block.setAccBit_icnt (b : Block) (j : Fin 288) : (b.setAccBit j).icnt = b.icnt := rfl
@[simp] theorem Block.setAccBit_fdig (b : Block) (j : Fin 288) : (b.setAccBit j).fdig = b.fdig := rfl
@[simp] theorem Block.setAccBit_idig (b : Block) (j : Fin 288) : (b.setAccBit j).idig = b.idig := rfl
@[simp] theorem Block.setAccBit_err (b : Block) (j : Fin 288) : (b.setAccBit j).err = b.err := rfl
@[simp] theorem Block.setAccBit_ecode (b : Block) (j : Fin 288) : (b.setAccBit j).ecode = b.ecode := rfl

@[simp] theorem Block.appendFdig_w (b : Block) (d : Digit) : (b.appendFdig d).w = b.w := rfl
@[simp] theorem Block.appendFdig_digit (b : Block) (d : Digit) : (b.appendFdig d).digit = b.digit := rfl
@[simp] theorem Block.appendFdig_fcnt (b : Block) (d : Digit) : (b.appendFdig d).fcnt = b.fcnt + 1#8 := rfl
@[simp] theorem Block.appendFdig_icnt (b : Block) (d : Digit) : (b.appendFdig d).icnt = b.icnt := rfl
@[simp] theorem Block.appendFdig_fdig (b : Block) (d : Digit) : (b.appendFdig d).fdig = b.fdig ++ [d] := rfl
@[simp] theorem Block.appendFdig_idig (b : Block) (d : Digit) : (b.appendFdig d).idig = b.idig := rfl
@[simp] theorem Block.appendFdig_err (b : Block) (d : Digit) : (b.appendFdig d).err = b.err := rfl
@[simp] theorem Block.appendFdig_ecode (b : Block) (d : Digit) : (b.appendFdig d).ecode = b.ecode := rfl

@[simp] theorem Block.appendIdig_w (b : Block) (d : Digit) : (b.appendIdig d).w = b.w := rfl
@[simp] theorem Block.appendIdig_digit (b : Block) (d : Digit) : (b.appendIdig d).digit = b.digit := rfl
@[simp] theorem Block.appendIdig_fcnt (b : Block) (d : Digit) : (b.appendIdig d).fcnt = b.fcnt := rfl
@[simp] theorem Block.appendIdig_icnt (b : Block) (d : Digit) : (b.appendIdig d).icnt = b.icnt + 1#6 := rfl
@[simp] theorem Block.appendIdig_fdig (b : Block) (d : Digit) : (b.appendIdig d).fdig = b.fdig := rfl
@[simp] theorem Block.appendIdig_idig (b : Block) (d : Digit) : (b.appendIdig d).idig = b.idig ++ [d] := rfl
@[simp] theorem Block.appendIdig_err (b : Block) (d : Digit) : (b.appendIdig d).err = b.err := rfl
@[simp] theorem Block.appendIdig_ecode (b : Block) (d : Digit) : (b.appendIdig d).ecode = b.ecode := rfl

@[simp] theorem Block.recordError_w (b : Block) (c : ErrorCode) : (b.recordError c).w = b.w := rfl
@[simp] theorem Block.recordError_digit (b : Block) (c : ErrorCode) : (b.recordError c).digit = b.digit := rfl
@[simp] theorem Block.recordError_fcnt (b : Block) (c : ErrorCode) : (b.recordError c).fcnt = b.fcnt := rfl
@[simp] theorem Block.recordError_icnt (b : Block) (c : ErrorCode) : (b.recordError c).icnt = b.icnt := rfl
@[simp] theorem Block.recordError_fdig (b : Block) (c : ErrorCode) : (b.recordError c).fdig = b.fdig := rfl
@[simp] theorem Block.recordError_idig (b : Block) (c : ErrorCode) : (b.recordError c).idig = b.idig := rfl
@[simp] theorem Block.recordError_err (b : Block) (c : ErrorCode) : (b.recordError c).err = true := rfl
@[simp] theorem Block.recordError_ecode (b : Block) (c : ErrorCode) : (b.recordError c).ecode = if b.err then b.ecode else c.code := rfl

@[simp] theorem Block.respond_fst (b : Block) (data : Word) : (b.respond data).1 = b := rfl
@[simp] theorem Block.respond_snd (b : Block) (data : Word) : (b.respond data).2 = ⟨false, data⟩ := rfl
@[simp] theorem Block.raiseError_fst (b : Block) (c : ErrorCode) : (b.raiseError c).1 = b.recordError c := rfl
@[simp] theorem Block.raiseError_snd (b : Block) (c : ErrorCode) :
    (b.raiseError c).2 = ⟨true, (b.recordError c).status⟩ := rfl

@[simp] theorem State.commit_block (s : State) (r : Block × Response) : (s.commit r).block = r.1 := rfl
@[simp] theorem State.commit_rsp (s : State) (r : Block × Response) : (s.commit r).rsp = some r.2 := rfl
@[simp] theorem State.commit_up (s : State) (r : Block × Response) : (s.commit r).up = s.up := rfl
@[simp] theorem State.commit_moves (s : State) (r : Block × Response) : (s.commit r).moves = s.moves := rfl
@[simp] theorem State.commit_taken (s : State) (r : Block × Response) : (s.commit r).taken = s.taken := rfl
@[simp] theorem State.commit_draws (s : State) (r : Block × Response) : (s.commit r).draws = s.draws := rfl

@[simp] theorem State.atReset_block (s : State) : s.atReset.block = Block.reset := rfl
@[simp] theorem State.atReset_rsp (s : State) : s.atReset.rsp = none := rfl
@[simp] theorem State.atReset_up (s : State) : s.atReset.up = true := rfl
@[simp] theorem State.atReset_moves (s : State) : s.atReset.moves = s.moves := rfl
@[simp] theorem State.atReset_taken (s : State) : s.atReset.taken = [] := rfl
@[simp] theorem State.atReset_draws (s : State) : s.atReset.draws = s.draws := rfl

/-- Everything taking a response can do when one waits (R61). -/
theorem State.takeResponse_some (s : State) (r : Response) (h : s.rsp = some r) :
    s.takeResponse = { s with rsp := none, taken := s.taken ++ [r] } := by
  simp [State.takeResponse, h]

/-- Nothing is taken when no response waits. -/
theorem State.takeResponse_none (s : State) (h : s.rsp = none) : s.takeResponse = s := by
  simp [State.takeResponse, h]

@[simp] theorem State.takeResponse_block (s : State) : s.takeResponse.block = s.block := by
  unfold State.takeResponse; split <;> rfl
@[simp] theorem State.takeResponse_up (s : State) : s.takeResponse.up = s.up := by
  unfold State.takeResponse; split <;> rfl
@[simp] theorem State.takeResponse_moves (s : State) : s.takeResponse.moves = s.moves := by
  unfold State.takeResponse; split <;> rfl
@[simp] theorem State.takeResponse_draws (s : State) : s.takeResponse.draws = s.draws := by
  unfold State.takeResponse; split <;> rfl
@[simp] theorem State.takeResponse_rsp (s : State) : s.takeResponse.rsp = none := by
  unfold State.takeResponse; split
  · rfl
  · assumption

end Sys2Proof.Machine
end

