-- ==== Sys2Proof/Laws/Step.lean ====
section
/-! SUPPORT. What exec, an accepted word, a move of the host and a step can do, said once. -/

namespace Sys2Proof.Machine

/-- exec is the command's rule on the architectural state, committed: it always answers a next state. -/
theorem exec_eq_commit (i : Instr) (s : State) : exec i s = .next (s.commit (commandRule i s.block)) := by
  cases i <;> rfl

/-- An accepted word is Exec on the architectural state, committed. -/
theorem execWord_eq_commit (w : Word) (s : State) : execWord w s = .next (s.commit (transact s.block w)) := by
  unfold execWord transact
  split
  · exact exec_eq_commit _ _
  · rfl

/-- If exec answers a next state, that state is the committed rule. -/
theorem exec_next (i : Instr) (s t : State) (h : exec i s = .next t) : t = s.commit (commandRule i s.block) := by
  rw [exec_eq_commit] at h
  exact (Host.Outcome.next.inj h).symm

/-- The four moves of the host on a machine that has been reset, each with its next state. -/
theorem hostMove_cases (m : HostMove) (rest : List HostMove) (s : State) (hup : s.up = true) :
    (m = .reset ∧ hostMove m rest s = .next { s with moves := rest }.atReset) ∨
    (m = .take ∧ hostMove m rest s = .next { s with moves := rest }.takeResponse) ∨
    (s.rsp ≠ none ∧ hostMove m rest s = .next s) ∨
    (s.rsp = none ∧ ∃ (w : Word) (n : Nat), hostMove m rest s =
      .next ({ s with moves := rest, draws := n }.commit (transact s.block w))) := by
  cases m with
  | reset => exact .inl ⟨rfl, rfl⟩
  | take => exact .inr (.inl ⟨rfl, by simp [hostMove, hup]⟩)
  | command w =>
    refine .inr (.inr ?_)
    cases h : s.rsp with
    | some r => exact .inl ⟨by simp, by simp [hostMove, hup, State.ready, h]⟩
    | none =>
      exact .inr ⟨rfl, w, s.draws, by simp [hostMove, hup, State.ready, h, execWord_eq_commit, State.commit]⟩
  | unheldCommand =>
    refine .inr (.inr ?_)
    cases h : s.rsp with
    | some r => exact .inl ⟨by simp, by simp [hostMove, hup, State.ready, h]⟩
    | none =>
      exact .inr ⟨rfl, Config.undeterminedWord s.draws, s.draws + 1,
        by simp [hostMove, hup, State.ready, h, execWord_eq_commit, State.commit]⟩

/-- Before the first reset every move but a reset is refused (R204). -/
theorem hostMove_before_reset (m : HostMove) (rest : List HostMove) (s : State) (hup : s.up = false) :
    hostMove m rest s = if m = .reset then .next { s with moves := rest }.atReset else .refused .beforeFirstReset := by
  cases m <;> simp [hostMove, hup]

end Sys2Proof.Machine
end

