-- ==== Sys2Proof/Laws/Cycle.lean ====
section
/-! SUPPORT. What a clock edge can do, case by case, said once. -/

namespace Sys2Proof.Machine

/-- A reset edge (R202). -/
theorem clockEdge_reset (p : Pins) (c : CycleState) (h : p.rstN = false) :
    clockEdge p c = .next (CycleState.afterReset c.machine) := by
  simp [clockEdge, h]

/-- An edge while a response waits (R61, R62). -/
theorem clockEdge_waiting (p : Pins) (c : CycleState) (r : Response) (h1 : p.rstN = true) (h2 : c.machine.up = true)
    (h3 : c.machine.rsp = some r) :
    clockEdge p c = .next { c with
      machine := if p.rspReady then c.machine.takeResponse else c.machine, offer := nextOffer p c.offer } := by
  simp [clockEdge, h1, h2, h3]

/-- An edge while a command executes (R61). -/
theorem clockEdge_running (p : Pins) (c : CycleState) (r : Running) (h1 : p.rstN = true) (h2 : c.machine.up = true)
    (h3 : c.machine.rsp = none) (h4 : c.running = some r) :
    clockEdge p c = advanceCommand r.word r.left (nextOffer p c.offer) c.machine := by
  simp [clockEdge, h1, h2, h3, h4]

/-- An accepting edge (R60). -/
theorem clockEdge_accepting (p : Pins) (c : CycleState) (h1 : p.rstN = true) (h2 : c.machine.up = true)
    (h3 : c.machine.rsp = none) (h4 : c.running = none) (h5 : p.cmdValid = true) :
    clockEdge p c = acceptCommand p c.offer c.machine := by
  simp [clockEdge, h1, h2, h3, h4, h5]

/-- An idle edge: the block keeps all its state (R191). -/
theorem clockEdge_idle (p : Pins) (c : CycleState) (h1 : p.rstN = true) (h2 : c.machine.up = true)
    (h3 : c.machine.rsp = none) (h4 : c.running = none) (h5 : p.cmdValid = false) :
    clockEdge p c = .next { c with offer := nextOffer p c.offer } := by
  simp [clockEdge, h1, h2, h3, h4, h5]

/-- The monitor with nothing offered yet (R69). -/
theorem nextOffer_idle (p : Pins) : nextOffer p .idle = if p.cmdValid then .held p.cmdData else .idle := rfl

/-- The monitor while word w has been held (R69). -/
theorem nextOffer_held (p : Pins) (w : Word) :
    nextOffer p (.held w) = if p.cmdValid && p.cmdData == w then .held w else .broken := rfl

/-- A broken duty stays broken until an accepting edge or a reset (R69). -/
@[simp] theorem nextOffer_broken (p : Pins) : nextOffer p .broken = .broken := rfl

/-- An accepting edge runs some word: cmd_data if the host has kept its duty, the free word if not (R60, R69). -/
theorem acceptCommand_cases (p : Pins) (o : Offer) (s : State) :
    (dutyKept p o = true ∧ acceptCommand p o s = advanceCommand p.cmdData (latency p.cmdData s.block) .idle s) ∨
    (dutyKept p o = false ∧ acceptCommand p o s =
      advanceCommand (Config.undeterminedWord s.draws) (latency (Config.undeterminedWord s.draws) s.block) .idle
        { s with draws := s.draws + 1 }) := by
  cases h : dutyKept p o with
  | true => exact .inl ⟨rfl, by simp [acceptCommand, h]⟩
  | false => exact .inr ⟨rfl, by simp [acceptCommand, h]⟩

/-- Everything a command under way does at an edge: it ends, with Exec's block and response, or has one edge less to
go. -/
theorem advanceCommand_cases (w : Word) (left : Nat) (o : Offer) (s : State) :
    (left ≤ 1 ∧ advanceCommand w left o s = .next ⟨s.commit (transact s.block w), none, o⟩) ∨
    (1 < left ∧ advanceCommand w left o s = .next ⟨s, some ⟨w, left - 1⟩, o⟩) := by
  by_cases h : left ≤ 1
  · exact .inl ⟨h, by simp [advanceCommand, h, completeCommand, execWord_eq_commit]⟩
  · exact .inr ⟨by omega, by simp [advanceCommand, h]⟩

end Sys2Proof.Machine
end

