-- ==== Sys2Proof/Laws/Decode.lean ====
section
/-! SUPPORT. What the decoder can answer, and the numbers its encoder writes, said once. -/

namespace Sys2Proof

theorem decodeN_eq_ok {i j : Instr} {w : Nat} : decodeN i w = .ok j ↔ bits w 27 0 = 0 ∧ i = j := by
  by_cases h : bits w 27 0 = 0 <;> simp [decodeN, h]

theorem decodeS_eq_ok {i : Int → Instr} {j : Instr} {w : Nat} :
    decodeS i w = .ok j ↔ bits w 27 16 = 0 ∧ i (sext 16 (bits w 15 0)) = j := by
  by_cases h : bits w 27 16 = 0 <;> simp [decodeS, h]

theorem decodeX_eq_ok {i : Nat → Instr} {j : Instr} {w : Nat} :
    decodeX i w = .ok j ↔ bits w 27 8 = 0 ∧ i (bits w 7 0) = j := by
  by_cases h : bits w 27 8 = 0 <;> simp [decodeX, h]

/-- Every word the decoder accepts, and what it reads from it (R86). -/
theorem decode_eq_ok (w : Word) (i : Instr) (h : decode w = .ok i) :
    (bits w.toNat 31 28 = 0 ∧ bits w.toNat 27 0 = 0 ∧ i = .nop) ∨
    (bits w.toNat 31 28 = 1 ∧ bits w.toNat 27 0 = 0 ∧ i = .clr) ∨
    (bits w.toNat 31 28 = 2 ∧ bits w.toNat 27 16 = 0 ∧ i = .setbit (sext 16 (bits w.toNat 15 0))) ∨
    (bits w.toNat 31 28 = 3 ∧ bits w.toNat 27 0 = 0 ∧ i = .fmul10) ∨
    (bits w.toNat 31 28 = 4 ∧ bits w.toNat 27 0 = 0 ∧ i = .idiv10) ∨
    (bits w.toNat 31 28 = 5 ∧ bits w.toNat 27 0 = 0 ∧ i = .frun) ∨
    (bits w.toNat 31 28 = 6 ∧ bits w.toNat 27 0 = 0 ∧ i = .irun) ∨
    (bits w.toNat 31 28 = 8 ∧ bits w.toNat 27 8 = 0 ∧ i = .rdw (bits w.toNat 7 0)) ∨
    (bits w.toNat 31 28 = 9 ∧ bits w.toNat 27 8 = 0 ∧ i = .rdfd (bits w.toNat 7 0)) ∨
    (bits w.toNat 31 28 = 10 ∧ bits w.toNat 27 8 = 0 ∧ i = .rdid (bits w.toNat 7 0)) := by
  unfold decode at h
  split at h <;> first | rw [decodeN_eq_ok] at h | rw [decodeS_eq_ok] at h | rw [decodeX_eq_ok] at h | cases h
  all_goals
    rename_i e
    obtain ⟨h0, rfl⟩ := h
    simp [e, h0]

/-- sext_16 of a 16-bit field (R10): the field itself below 2^15, less 2^16 from there on. -/
theorem sext16_eq (v : Nat) (hv : v < 2 ^ 16) :
    (v < 2 ^ 15 ∧ sext 16 v = v) ∨ (2 ^ 15 ≤ v ∧ sext 16 v = (v : Int) - 2 ^ 16) := by
  unfold sext bits
  by_cases h : v / 2 ^ (16 - 1) % 2 ^ (16 - 1 + 1 - (16 - 1)) = 1
  · rw [if_pos h]; exact .inr ⟨by omega, rfl⟩
  · rw [if_neg h]; exact .inl ⟨by omega, rfl⟩

/-- An encoder's word as a number: the opcode in bits 31:28 and an operand below 2^28 in the low bits. -/
theorem opcode_or_operand (op n : Nat) (hop : op < 16) (hn : n < 2 ^ 28) :
    (BitVec.ofNat 32 (op * 2 ^ 28) ||| BitVec.ofNat 32 n).toNat = op * 2 ^ 28 + n := by
  rw [BitVec.toNat_or, BitVec.toNat_ofNat, BitVec.toNat_ofNat, Nat.mod_eq_of_lt (by omega),
    Nat.mod_eq_of_lt (by omega), Nat.mul_comm, ← Nat.two_pow_add_eq_or_of_lt hn]

end Sys2Proof
end

