-- ==== Sys2Proof/Laws/Ends.lean ====
section
/-! SUPPORT. How a command ends, in terms of its rule: the next state of exec is a success or an error exactly when the
rule's result is one. -/

namespace Sys2Proof.Machine

theorem afterError_eq (b : Block) (c : ErrorCode) : b.recordError c = afterError b c.code := rfl

/-- A committed result is the state with that block and response, and with no other. -/
theorem commit_eq_iff (s : State) (r : Block × Response) (b : Block) (x : Response) :
    (Host.Outcome.next (s.commit r) : Host.Outcome State Fault Refusal) = .next { s with block := b, rsp := some x } ↔
      r = (b, x) := by
  constructor
  · intro h
    have h := Host.Outcome.next.inj h
    have h1 := congrArg State.block h
    have h2 := congrArg State.rsp h
    simp only [State.commit_block, State.commit_rsp, Option.some.injEq] at h1 h2
    exact Prod.ext h1 h2
  · rintro rfl
    rfl

/-- A command succeeds exactly when its rule responds (0, data). -/
theorem succeeds_iff (i : Instr) (s : State) (b : Block) (data : Word) :
    Succeeds i s b data ↔ commandRule i s.block = (b, ⟨false, data⟩) := by
  unfold Succeeds
  rw [exec_eq_commit, commit_eq_iff]

/-- A command fails exactly when its rule responds (1, STATUS) with only ERR and ECODE changed. -/
theorem failsFrom_iff (i : Instr) (s : State) (b : Block) (code : BitVec 4) :
    FailsFrom i s b code ↔ commandRule i s.block = (afterError b code, ⟨true, (afterError b code).status⟩) := by
  unfold FailsFrom
  rw [exec_eq_commit, commit_eq_iff]

/-- Everything a run can do (R132, R133): after n successful passes its test holds, or the next pass raises the error it
ends with, or its bound is used up. -/
theorem repeatPass_cases (pass : Block → Except ErrorCode Block) (done : Block → Bool) (fuel : Nat) (b : Block) :
    ∃ n ≤ fuel, afterPasses pass n b = .ok (repeatPass pass done fuel b).1 ∧
      (((repeatPass pass done fuel b).2 = none ∧ 1 ≤ n ∧ done (repeatPass pass done fuel b).1 = true) ∨
       ((repeatPass pass done fuel b).2 = none ∧ n = fuel) ∨
       ∃ c, (repeatPass pass done fuel b).2 = some c ∧ pass (repeatPass pass done fuel b).1 = .error c) := by
  induction fuel generalizing b with
  | zero => exact ⟨0, Nat.le_refl _, rfl, .inr (.inl ⟨rfl, rfl⟩)⟩
  | succ fuel ih =>
    unfold repeatPass
    cases h : pass b with
    | error c => exact ⟨0, Nat.zero_le _, rfl, .inr (.inr ⟨c, rfl, h⟩)⟩
    | ok b' =>
      cases hd : done b' with
      | true => exact ⟨1, by omega, by simp [afterPasses, h, hd], .inl ⟨by simp [hd], Nat.le_refl _, by simp [hd]⟩⟩
      | false =>
        obtain ⟨n, hn, h1, h2⟩ := ih b'
        refine ⟨n + 1, by omega, by simpa [afterPasses, h, hd] using h1, ?_⟩
        simp only [hd]
        rcases h2 with h2 | h2 | h2
        · exact .inl ⟨h2.1, by omega, h2.2.2⟩
        · exact .inr (.inl ⟨h2.1, by omega⟩)
        · exact .inr (.inr h2)

end Sys2Proof.Machine
end

