-- ==== Sys2Proof/Laws/Views.lean ====
section
/-! SUPPORT. The accumulator's views: they depend on the words alone, they fit their widths, and the flags test them for
zero (spec/10_state.md R22, R23, R34). -/

namespace Sys2Proof.Machine

theorem Block.fracValue_congr {a b : Block} (h : a.w = b.w) : a.fracValue = b.fracValue := by
  unfold Block.fracValue; rw [h]

theorem Block.intValue_congr {a b : Block} (h : a.w = b.w) : a.intValue = b.intValue := by
  unfold Block.intValue; rw [h]

theorem Block.accValue_congr {a b : Block} (h : a.w = b.w) : a.accValue = b.accValue := by
  unfold Block.accValue; rw [h]

theorem Block.fz_congr {a b : Block} (h : a.w = b.w) : a.fz = b.fz := by unfold Block.fz; rw [h]

theorem Block.iz_congr {a b : Block} (h : a.w = b.w) : a.iz = b.iz := by unfold Block.iz; rw [h]

theorem Block.fracValue_lt (b : Block) : b.fracValue < 2 ^ 160 := by
  have h0 := b.w[0].isLt
  have h1 := b.w[1].isLt
  have h2 := b.w[2].isLt
  have h3 := b.w[3].isLt
  have h4 := b.w[4].isLt
  simp only [Block.fracValue]
  omega

theorem Block.intValue_lt (b : Block) : b.intValue < 2 ^ 128 := by
  have h5 := b.w[5].isLt
  have h6 := b.w[6].isLt
  have h7 := b.w[7].isLt
  have h8 := b.w[8].isLt
  simp only [Block.intValue]
  omega

/-- V is I above the binary point and F below it (R23). -/
theorem Block.accValue_eq (b : Block) : b.accValue = b.intValue * 2 ^ 160 + b.fracValue := by
  simp only [Block.accValue, Block.intValue, Block.fracValue]
  omega

/-- FZ = 1 iff F = 0 (R34). -/
theorem Block.fz_eq_true (b : Block) : b.fz = true ↔ b.fracValue = 0 := by
  simp only [Block.fz, Block.fracValue, Bool.and_eq_true, beq_iff_eq, ← BitVec.toNat_inj, BitVec.toNat_ofNat]
  omega

/-- IZ = 1 iff I = 0 (R34). -/
theorem Block.iz_eq_true (b : Block) : b.iz = true ↔ b.intValue = 0 := by
  simp only [Block.iz, Block.intValue, Bool.and_eq_true, beq_iff_eq, ← BitVec.toNat_inj, BitVec.toNat_ofNat]
  omega

end Sys2Proof.Machine
end

