-- ==== Sys2Proof/Laws/Extractor.lean ====
section
/-! SUPPORT. What one word of a pass, a sweep, a pass and a run can do, said once. -/

namespace Sys2Proof.Machine

/-- One word of FracPass: the word and the carry out hold the whole product and carry in (R134). -/
theorem mulWord_law (p : Sweep) (i : Fin 9) (h : p.carry ≤ 9) :
    (mulWord p i).w[i].toNat + (mulWord p i).carry * 2 ^ 32 = p.w[i].toNat * 10 + p.carry ∧
    (mulWord p i).carry ≤ 9 := by
  have hw := p.w[i].isLt
  simp only [mulWord, Fin.getElem_fin, Vector.getElem_set_self, BitVec.toNat_ofNat, bits, Nat.reducePow, Nat.reduceAdd,
    Nat.reduceSub]
  simp only [Fin.getElem_fin] at hw
  have ht : (p.w[i.val].toNat * 10 + p.carry) / 4294967296 ≤ 9 := by omega
  rw [Nat.mod_eq_of_lt (by omega : (p.w[i.val].toNat * 10 + p.carry) / 4294967296 < 4294967296)]
  omega

/-- One word of FracPass writes no other word. -/
theorem mulWord_frame (p : Sweep) (i : Fin 9) (j : Nat) (hj : j < 9) (h : j ≠ i.val) :
    (mulWord p i).w[j] = p.w[j] := by
  simp only [mulWord]
  exact Vector.getElem_set_ne _ _ (fun e => h e.symm)

/-- One word of IntPass: quotient word and remainder rebuild the dividend (R135). -/
theorem divWord_law (p : Sweep) (i : Fin 9) (h : p.carry ≤ 9) :
    (divWord p i).w[i].toNat * 10 + (divWord p i).carry = p.carry * 2 ^ 32 + p.w[i].toNat ∧
    (divWord p i).carry ≤ 9 := by
  have hw := p.w[i].isLt
  simp only [divWord, Fin.getElem_fin, Vector.getElem_set_self, BitVec.toNat_ofNat]
  simp only [Fin.getElem_fin] at hw
  omega

/-- One word of IntPass writes no other word. -/
theorem divWord_frame (p : Sweep) (i : Fin 9) (j : Nat) (hj : j < 9) (h : j ≠ i.val) :
    (divWord p i).w[j] = p.w[j] := by
  simp only [divWord]
  exact Vector.getElem_set_ne _ _ (fun e => h e.symm)

/-- Everything the fraction sweep does (R134): 10·F = digit·2^160 + F', a digit in 0 to 9, and W[5] to W[8] kept. -/
theorem fracSweep_law (b : Block) :
    10 * b.fracValue = (fracSweep b.w).carry * 2 ^ 160 + ({ b with w := (fracSweep b.w).w } : Block).fracValue ∧
    (fracSweep b.w).carry ≤ 9 ∧ ∀ (k : Nat) (hk : k < 9), 5 ≤ k → (fracSweep b.w).w[k] = b.w[k] := by
  have e : fracSweep b.w = mulWord (mulWord (mulWord (mulWord (mulWord ⟨b.w, 0⟩ 0) 1) 2) 3) 4 := rfl
  have f0 := mulWord_frame ⟨b.w, 0⟩ 0
  have h0 := mulWord_law ⟨b.w, 0⟩ 0 (by simp)
  generalize hp1 : mulWord ⟨b.w, 0⟩ 0 = p1 at *
  have f1 := mulWord_frame p1 1
  have h1 := mulWord_law p1 1 h0.2
  generalize hp2 : mulWord p1 1 = p2 at *
  have f2 := mulWord_frame p2 2
  have h2 := mulWord_law p2 2 h1.2
  generalize hp3 : mulWord p2 2 = p3 at *
  have f3 := mulWord_frame p3 3
  have h3 := mulWord_law p3 3 h2.2
  generalize hp4 : mulWord p3 3 = p4 at *
  have f4 := mulWord_frame p4 4
  have h4 := mulWord_law p4 4 h3.2
  generalize hp5 : mulWord p4 4 = p5 at *
  rw [e]
  refine ⟨?_, h4.2, ?_⟩
  · have l0 : p1.w[0].toNat + p1.carry * 2 ^ 32 = b.w[0].toNat * 10 + 0 := h0.1
    have l1 : p2.w[1].toNat + p2.carry * 2 ^ 32 = p1.w[1].toNat * 10 + p1.carry := h1.1
    have l2 : p3.w[2].toNat + p3.carry * 2 ^ 32 = p2.w[2].toNat * 10 + p2.carry := h2.1
    have l3 : p4.w[3].toNat + p4.carry * 2 ^ 32 = p3.w[3].toNat * 10 + p3.carry := h3.1
    have l4 : p5.w[4].toNat + p5.carry * 2 ^ 32 = p4.w[4].toNat * 10 + p4.carry := h4.1
    rw [f0 1 (by decide) (by decide)] at l1
    rw [f1 2 (by decide) (by decide), f0 2 (by decide) (by decide)] at l2
    rw [f2 3 (by decide) (by decide), f1 3 (by decide) (by decide), f0 3 (by decide) (by decide)] at l3
    rw [f3 4 (by decide) (by decide), f2 4 (by decide) (by decide), f1 4 (by decide) (by decide),
      f0 4 (by decide) (by decide)] at l4
    dsimp only at l1 l2 l3 l4
    simp only [Block.fracValue]
    rw [f4 0 (by decide) (by decide), f3 0 (by decide) (by decide), f2 0 (by decide) (by decide),
      f1 0 (by decide) (by decide), f4 1 (by decide) (by decide), f3 1 (by decide) (by decide),
      f2 1 (by decide) (by decide), f4 2 (by decide) (by decide), f3 2 (by decide) (by decide),
      f4 3 (by decide) (by decide)]
    omega
  · intro k hk h5
    have hne : k ≠ 0 ∧ k ≠ 1 ∧ k ≠ 2 ∧ k ≠ 3 ∧ k ≠ 4 := by omega
    rw [f4 k hk hne.2.2.2.2, f3 k hk hne.2.2.2.1, f2 k hk hne.2.2.1, f1 k hk hne.2.1, f0 k hk hne.1]

/-- Everything the integer sweep does (R135): I = 10·I' + digit, a digit in 0 to 9, and W[0] to W[4] kept. -/
theorem intSweep_law (b : Block) :
    b.intValue = 10 * ({ b with w := (intSweep b.w).w } : Block).intValue + (intSweep b.w).carry ∧
    (intSweep b.w).carry ≤ 9 ∧ ∀ (k : Nat) (hk : k < 9), k ≤ 4 → (intSweep b.w).w[k] = b.w[k] := by
  have e : intSweep b.w = divWord (divWord (divWord (divWord ⟨b.w, 0⟩ 8) 7) 6) 5 := rfl
  have f0 := divWord_frame ⟨b.w, 0⟩ 8
  have h0 := divWord_law ⟨b.w, 0⟩ 8 (by simp)
  generalize hp1 : divWord ⟨b.w, 0⟩ 8 = p1 at *
  have f1 := divWord_frame p1 7
  have h1 := divWord_law p1 7 h0.2
  generalize hp2 : divWord p1 7 = p2 at *
  have f2 := divWord_frame p2 6
  have h2 := divWord_law p2 6 h1.2
  generalize hp3 : divWord p2 6 = p3 at *
  have f3 := divWord_frame p3 5
  have h3 := divWord_law p3 5 h2.2
  generalize hp4 : divWord p3 5 = p4 at *
  rw [e]
  refine ⟨?_, h3.2, ?_⟩
  · have l0 : p1.w[8].toNat * 10 + p1.carry = 0 * 2 ^ 32 + b.w[8].toNat := h0.1
    have l1 : p2.w[7].toNat * 10 + p2.carry = p1.carry * 2 ^ 32 + p1.w[7].toNat := h1.1
    have l2 : p3.w[6].toNat * 10 + p3.carry = p2.carry * 2 ^ 32 + p2.w[6].toNat := h2.1
    have l3 : p4.w[5].toNat * 10 + p4.carry = p3.carry * 2 ^ 32 + p3.w[5].toNat := h3.1
    rw [f0 7 (by decide) (by decide)] at l1
    rw [f1 6 (by decide) (by decide), f0 6 (by decide) (by decide)] at l2
    rw [f2 5 (by decide) (by decide), f1 5 (by decide) (by decide), f0 5 (by decide) (by decide)] at l3
    dsimp only at l1 l2 l3
    simp only [Block.intValue]
    rw [f3 6 (by decide) (by decide), f3 7 (by decide) (by decide), f2 7 (by decide) (by decide),
      f3 8 (by decide) (by decide), f2 8 (by decide) (by decide), f1 8 (by decide) (by decide)]
    omega
  · intro k hk h5
    have hne : k ≠ 8 ∧ k ≠ 7 ∧ k ≠ 6 ∧ k ≠ 5 := by omega
    rw [f3 k hk hne.2.2.2, f2 k hk hne.2.2.1, f1 k hk hne.2.1, f0 k hk hne.1]
/-- Everything a fraction pass can do (R130). -/
theorem fracPass_cases (b : Block) :
    (b.fcnt = 149#8 ∧ fracPass b = .error .fovf) ∨
    (b.fcnt ≠ 149#8 ∧ fracPass b = .ok { b with
      w := (fracSweep b.w).w, digit := BitVec.ofNat 4 (fracSweep b.w).carry,
      fdig := b.fdig ++ [BitVec.ofNat 4 (fracSweep b.w).carry], fcnt := b.fcnt + 1#8 }) := by
  by_cases h : b.fcnt = 149#8
  · exact .inl ⟨h, by simp [fracPass, h]⟩
  · exact .inr ⟨h, by simp [fracPass, h, Block.appendFdig]⟩

/-- Everything an integer pass can do (R131). -/
theorem intPass_cases (b : Block) :
    (b.icnt = 39#6 ∧ intPass b = .error .iovf) ∨
    (b.icnt ≠ 39#6 ∧ intPass b = .ok { b with
      w := (intSweep b.w).w, digit := BitVec.ofNat 4 (intSweep b.w).carry,
      idig := b.idig ++ [BitVec.ofNat 4 (intSweep b.w).carry], icnt := b.icnt + 1#6 }) := by
  by_cases h : b.icnt = 39#6
  · exact .inl ⟨h, by simp [intPass, h]⟩
  · exact .inr ⟨h, by simp [intPass, h, Block.appendIdig]⟩

/-- A successful fraction pass: its count, its store and the fraction pass law on the views (R130, R134). -/
theorem fracPass_ok (b b' : Block) (h : fracPass b = .ok b') :
    b.fcnt ≠ 149#8 ∧ b'.fcnt = b.fcnt + 1#8 ∧
    10 * b.fracValue = (fracSweep b.w).carry * 2 ^ 160 + b'.fracValue ∧ (fracSweep b.w).carry ≤ 9 ∧
    b'.digit = BitVec.ofNat 4 (fracSweep b.w).carry ∧
    b'.fdig = b.fdig ++ [BitVec.ofNat 4 (fracSweep b.w).carry] ∧
    b' = { b with w := (fracSweep b.w).w, digit := b'.digit, fdig := b'.fdig, fcnt := b'.fcnt } := by
  rcases fracPass_cases b with ⟨_, h2⟩ | ⟨h1, h2⟩
  · rw [h2] at h; cases h
  · rw [h2] at h
    cases h
    have hs := fracSweep_law b
    refine ⟨h1, rfl, ?_, hs.2.1, rfl, rfl, rfl⟩
    rw [hs.1]
    exact congrArg _ (Block.fracValue_congr rfl)

/-- A successful integer pass: its count, its store and the integer pass law on the views (R131, R135). -/
theorem intPass_ok (b b' : Block) (h : intPass b = .ok b') :
    b.icnt ≠ 39#6 ∧ b'.icnt = b.icnt + 1#6 ∧
    b.intValue = 10 * b'.intValue + (intSweep b.w).carry ∧ (intSweep b.w).carry ≤ 9 ∧
    b'.digit = BitVec.ofNat 4 (intSweep b.w).carry ∧
    b'.idig = b.idig ++ [BitVec.ofNat 4 (intSweep b.w).carry] ∧
    b' = { b with w := (intSweep b.w).w, digit := b'.digit, idig := b'.idig, icnt := b'.icnt } := by
  rcases intPass_cases b with ⟨_, h2⟩ | ⟨h1, h2⟩
  · rw [h2] at h; cases h
  · rw [h2] at h
    cases h
    have hs := intSweep_law b
    refine ⟨h1, rfl, ?_, hs.2.1, rfl, rfl, rfl⟩
    rw [hs.1]
    exact congrArg (10 * · + (intSweep b.w).carry) (Block.intValue_congr rfl)

/-- A relation that is reflexive and that every successful pass followed by it extends holds from the start of a run
to its end: the induction of repeatPass, packaged once. -/
theorem repeatPass_induct (pass : Block → Except ErrorCode Block) (done : Block → Bool) (R : Block → Block → Prop)
    (refl : ∀ b, R b b) (step : ∀ a b c, pass a = .ok b → R b c → R a c) :
    ∀ n b, R b (repeatPass pass done n b).1 := by
  intro n
  induction n with
  | zero => exact fun b => refl b
  | succ n ih =>
    intro b
    unfold repeatPass
    cases h : pass b with
    | error c => exact refl b
    | ok b' =>
      cases hd : done b' with
      | true => simpa [hd] using step b b' b' h (refl b')
      | false => simpa [hd] using step b b' _ h (ih b')

end Sys2Proof.Machine
end

