-- ==== Sys2Proof/Laws/Operands.lean ====
section
/-! SUPPORT. What each operand form answers, said once: the absolute bit of a position and the three indexes. -/

namespace Sys2Proof.Machine

/-- A position that is legal addresses bit position + 33, in 11 to 287 (R51). -/
theorem accBit_eq_some (pos : Int) (j : Fin 288) :
    accBit pos = some j ↔ (-22 ≤ pos ∧ pos ≤ 254) ∧ (j.val : Int) = pos + 33 := by
  unfold accBit
  split
  · rename_i h
    simp only [Config.posMin, Config.posMax] at h
    rw [Option.some.injEq, Fin.ext_iff]
    simp only [Config.offset]
    omega
  · rename_i h
    simp only [Config.posMin, Config.posMax] at h
    simp only [reduceCtorEq, false_iff]
    omega

/-- A position is illegal exactly outside -22 to 254 (R54). -/
theorem accBit_eq_none (pos : Int) : accBit pos = none ↔ pos < -22 ∨ 254 < pos := by
  unfold accBit
  split
  · rename_i h
    simp only [Config.posMin, Config.posMax] at h
    simp only [reduceCtorEq, false_iff]
    omega
  · rename_i h
    simp only [Config.posMin, Config.posMax] at h
    simp only [true_iff]
    omega

theorem wordIndex_eq_some (k : Nat) (i : Fin 9) : wordIndex k = some i ↔ i.val = k := by
  unfold wordIndex
  split
  · rw [Option.some.injEq, Fin.ext_iff]; exact eq_comm
  · simp only [reduceCtorEq, false_iff]; omega

theorem wordIndex_eq_none (k : Nat) : wordIndex k = none ↔ 8 < k := by
  unfold wordIndex
  split <;> simp only [reduceCtorEq, false_iff, true_iff] <;> omega

theorem fdigIndex_eq_some (k : Nat) (i : Fin 149) : fdigIndex k = some i ↔ i.val = k := by
  unfold fdigIndex
  split
  · rw [Option.some.injEq, Fin.ext_iff]; exact eq_comm
  · simp only [reduceCtorEq, false_iff]; omega

theorem fdigIndex_eq_none (k : Nat) : fdigIndex k = none ↔ 149 ≤ k := by
  unfold fdigIndex
  split <;> simp only [reduceCtorEq, false_iff, true_iff] <;> omega

theorem idigIndex_eq_some (k : Nat) (i : Fin 39) : idigIndex k = some i ↔ i.val = k := by
  unfold idigIndex
  split
  · rw [Option.some.injEq, Fin.ext_iff]; exact eq_comm
  · simp only [reduceCtorEq, false_iff]; omega

theorem idigIndex_eq_none (k : Nat) : idigIndex k = none ↔ 39 ≤ k := by
  unfold idigIndex
  split <;> simp only [reduceCtorEq, false_iff, true_iff] <;> omega

end Sys2Proof.Machine
end

