-- ==== Sys2Proof/Laws/PerInstr.lean ====
section
/-! SUPPORT. The per-instruction family OpField: the encoder writes each command's own OP into bits 31:28, and nothing
else there (spec/30_encoding.md R81, R85). -/

namespace Sys2Proof.Laws.OpField

/-- The OP value of a command (R85). -/
def opOf : Instr → Nat
  | .nop => 0x0
  | .clr => 0x1
  | .setbit _ => 0x2
  | .fmul10 => 0x3
  | .idiv10 => 0x4
  | .frun => 0x5
  | .irun => 0x6
  | .rdw _ => 0x8
  | .rdfd _ => 0x9
  | .rdid _ => 0xA

/-- The word of a well-formed command holds the command's OP in bits 31:28. -/
def Statement (i : Instr) : Prop := i.wellFormed = true → bits (encode i).toNat 31 28 = opOf i

theorem field_of_sum (op n : Nat) (hop : op < 16) (hn : n < 2 ^ 28) : bits (op * 2 ^ 28 + n) 31 28 = op := by
  simp only [bits]
  omega

/-- An operand below 2^28 leaves the OP of the match word in bits 31:28. -/
theorem field_of_or (op n : Nat) (m : Word) (hm : m = BitVec.ofNat 32 (op * 2 ^ 28)) (hop : op < 16) (hn : n < 2 ^ 28) :
    bits (m ||| BitVec.ofNat 32 n).toNat 31 28 = op := by
  subst hm
  rw [opcode_or_operand op n hop hn]
  exact field_of_sum op n hop hn

theorem nop : Statement .nop := fun _ => by decide

theorem clr : Statement .clr := fun _ => by decide

theorem setbit (pos : Int) : Statement (.setbit pos) := by
  intro _
  exact field_of_or 2 _ _ (by decide) (by decide) (by omega)

theorem fmul10 : Statement .fmul10 := fun _ => by decide

theorem idiv10 : Statement .idiv10 := fun _ => by decide

theorem frun : Statement .frun := fun _ => by decide

theorem irun : Statement .irun := fun _ => by decide

theorem index_bound (k : Nat) (h : indexEncodable k = true) : k < 2 ^ 28 := by
  simp only [indexEncodable, decide_eq_true_eq] at h
  omega

theorem rdw (k : Nat) : Statement (.rdw k) := by
  intro h
  exact field_of_or 8 _ _ (by decide) (by decide) (index_bound k h)

theorem rdfd (k : Nat) : Statement (.rdfd k) := by
  intro h
  exact field_of_or 9 _ _ (by decide) (by decide) (index_bound k h)

theorem rdid (k : Nat) : Statement (.rdid k) := by
  intro h
  exact field_of_or 10 _ _ (by decide) (by decide) (index_bound k h)

end Sys2Proof.Laws.OpField
end

