-- ==== Sys2Proof/Tests/Slice0.lean ====
section
/-! SUPPORT. The model's own tests. Expected values are the worked words and vectors of spec/95_test_vectors.md and the
examples of the rules cited; each test of a command is about one step. The second half holds one witness for the
hypotheses of each statement of Certificates/Slice0/Obligations.lean. -/

namespace Sys2Proof.Machine.Tests

/-! ### Well-formedness: a term that the check refuses, for each check -/

theorem test_wf_setbit_low : Instr.wellFormed (.setbit (-32769)) = false := by decide
theorem test_wf_setbit_high : Instr.wellFormed (.setbit 32768) = false := by decide
theorem test_wf_rdw : Instr.wellFormed (.rdw 256) = false := by decide
theorem test_wf_rdfd : Instr.wellFormed (.rdfd 256) = false := by decide
theorem test_wf_rdid : Instr.wellFormed (.rdid 256) = false := by decide
theorem test_wf_extremes : Instr.wellFormed (.setbit (-32768)) = true ∧ Instr.wellFormed (.setbit 32767) = true ∧
    Instr.wellFormed (.rdw 255) = true := by decide

/-! ### Decoding: words written out from the encodings of R82 to R85, operand bits last -/

theorem test_decode_nop : decode 0b0000_0000000000000000000000000000#32 = .ok .nop := by decide
theorem test_decode_clr : decode 0b0001_0000000000000000000000000000#32 = .ok .clr := by decide
/-- R83: position -22 is encoded as POS = 0xFFEA. -/
theorem test_decode_setbit_negative : decode 0b0010_000000000000_1111111111101010#32 = .ok (.setbit (-22)) := by decide
theorem test_decode_setbit_positive : decode 0b0010_000000000000_0000000011111110#32 = .ok (.setbit 254) := by decide
theorem test_decode_fmul10 : decode 0b0011_0000000000000000000000000000#32 = .ok .fmul10 := by decide
theorem test_decode_idiv10 : decode 0b0100_0000000000000000000000000000#32 = .ok .idiv10 := by decide
theorem test_decode_frun : decode 0b0101_0000000000000000000000000000#32 = .ok .frun := by decide
theorem test_decode_irun : decode 0b0110_0000000000000000000000000000#32 = .ok .irun := by decide
theorem test_decode_rdw : decode 0b1000_00000000000000000000_00001000#32 = .ok (.rdw 8) := by decide
theorem test_decode_rdfd : decode 0b1001_00000000000000000000_10010100#32 = .ok (.rdfd 148) := by decide
theorem test_decode_rdid : decode 0b1010_00000000000000000000_00100110#32 = .ok (.rdid 38) := by decide
/-- R172: the four ILLEGAL words it names. -/
theorem test_decode_illegal : decode 0x70000000#32 = .error .reservedOp ∧ decode 0xF0000000#32 = .error .reservedOp ∧
    decode 0x10000001#32 = .error .nonzeroField ∧ decode 0x20010000#32 = .error .nonzeroField := by decide
/-- V75 and V76: a zero field is checked before the operand's range. -/
theorem test_decode_zero_field : decode 0x200100FF#32 = .error .nonzeroField ∧
    decode 0x800001FF#32 = .error .nonzeroField := by decide
theorem test_decode_table_word : decodeTableWord 32 0x2000FFEA = some (.setbit (-22)) ∧
    decodeTableWord 32 0x70000000 = none := by decide

/-! ### One step of each command -/

/-- The block with this fraction word W[4], integer words W[5] and W[8], and everything else at reset. -/
def blockOf (w4 w5 w8 : Word) : Block := { Block.reset with w := #v[0#32, 0#32, 0#32, 0#32, w4, w5, 0#32, 0#32, w8] }

/-- The machine after reset, but for its block. -/
def machineOf (b : Block) : State := { State.reset with block := b }

/-- The machine after one step that runs this word on this block, or none after a refusal. -/
def stepOn (b : Block) (w : Nat) : Option State :=
  match step ((machineOf b).withFetchWord 32 w) with
  | .next t => some t
  | .fault _ => none
  | .refused _ => none

/-- The response of that step. -/
def answer (b : Block) (w : Nat) : Option Response := (stepOn b w).bind (·.rsp)

/-- The accumulator after that step. -/
def accAfter (b : Block) (w : Nat) : Option (Vector Word 9) := (stepOn b w).map (·.block.w)

/-- V80: reset; NOP. -/
theorem test_nop : answer Block.reset 0x00000000 = some ⟨false, 0x00000003#32⟩ := by decide
/-- R120: NOP after an error reports it and does not fail (P3, command 9). -/
theorem test_nop_after_error : answer { Block.reset with err := true, ecode := 2#4 } 0x00000000
    = some ⟨false, 0x00000027#32⟩ := by decide
/-- R121: from any state CLR answers (0, 00000003). -/
theorem test_clr : answer { blockOf 1#32 2#32 3#32 with err := true, ecode := 5#4, fcnt := 7#8 } 0x10000000
    = some ⟨false, 0x00000003#32⟩ := by decide
theorem test_clr_words : accAfter (blockOf 1#32 2#32 3#32) 0x10000000 = some (Vector.replicate 9 0#32) := by decide
/-- R122: SETBIT 127 sets W[5] bit 0 and answers (0, 00000001). -/
theorem test_setbit : answer Block.reset 0x2000007F = some ⟨false, 0x00000001#32⟩ ∧
    accAfter Block.reset 0x2000007F = some (blockOf 0#32 1#32 0#32).w := by decide
/-- P3, command 2: SETBIT 255 raises POS. -/
theorem test_setbit_pos : answer Block.reset 0x200000FF = some ⟨true, 0x00000027#32⟩ ∧
    accAfter Block.reset 0x200000FF = some Block.reset.w := by decide
/-- R130's example: F = 2^159 gives digit 5 and F = 0 (P4, command 6, without its integer part). -/
theorem test_fmul10 : answer (blockOf 0x80000000#32 0#32 0#32) 0x30000000 = some ⟨false, 0x00001503#32⟩ ∧
    accAfter (blockOf 0x80000000#32 0#32 0#32) 0x30000000 = some Block.reset.w := by decide
/-- V48: the first pass of 0.1 leaves W[4] = 00000040 with digit 1. -/
theorem test_fmul10_fraction : accAfter (blockOf 0x199999A0#32 0#32 0#32) 0x30000000
    = some (blockOf 0x40#32 0#32 0#32).w := by decide
/-- V49: 2^127 div 10, digit 8. -/
theorem test_idiv10 : answer (blockOf 0#32 0#32 0x80000000#32) 0x40000000 = some ⟨false, 0x00100801#32⟩ ∧
    accAfter (blockOf 0#32 0#32 0x80000000#32) 0x40000000
      = some #v[0#32, 0#32, 0#32, 0#32, 0#32, 0xCCCCCCCC#32, 0xCCCCCCCC#32, 0xCCCCCCCC#32, 0x0CCCCCCC#32] := by decide
/-- R131: IDIV10 at ICNT = 39 raises IOVF. -/
theorem test_idiv10_iovf : answer { Block.reset with icnt := 39#6 } 0x40000000 = some ⟨true, 0x02700057#32⟩ := by decide
/-- R132's example, V55: 0.5 takes one pass. -/
theorem test_frun : answer (blockOf 0x80000000#32 0#32 0#32) 0x50000000 = some ⟨false, 0x00001503#32⟩ := by
  decide
/-- V62's second FRUN, cut short: from FCNT = 148 one pass is kept, then FOVF. -/
theorem test_frun_fovf : answer { blockOf 0xC0000000#32 0#32 0#32 with fcnt := 148#8 } 0x50000000
    = some ⟨true, 0x00095746#32⟩ := by decide
/-- V57: IRUN on 10 takes two passes. -/
theorem test_irun : answer (blockOf 0#32 10#32 0#32) 0x60000000 = some ⟨false, 0x00200103#32⟩ := by decide
/-- V52's integer side in one command: 2^127 takes 39 passes, last digit 1 (T5). -/
theorem test_irun_long : answer (blockOf 0#32 0#32 0x80000000#32) 0x60000000 = some ⟨false, 0x02700103#32⟩ := by
  decide
/-- P4, command 4: RDW 4. -/
theorem test_rdw : answer (blockOf 0x80000000#32 1#32 0#32) 0x80000004 = some ⟨false, 0x80000000#32⟩ := by decide
/-- P3, command 4, without the earlier error: RDW 9 raises IDX. -/
theorem test_rdw_idx : answer Block.reset 0x80000009 = some ⟨true, 0x00000037#32⟩ := by decide
/-- V64's last two reads: 0x107 for a digit 7; past FCNT VALID is 0. -/
theorem test_rdfd : answer { Block.reset with fcnt := 1#8, fdig := [7#4] } 0x90000000 = some ⟨false, 0x00000107#32⟩ ∧
    answer { Block.reset with fcnt := 1#8, fdig := [7#4] } 0x90000001 = some ⟨false, 0#32⟩ := by decide
/-- V78: RDFD 149 raises IDX. -/
theorem test_rdfd_idx : answer Block.reset 0x90000095 = some ⟨true, 0x00000037#32⟩ := by decide
/-- R131: three IDIV10 on 0, then RDID 2 and RDID 3. -/
theorem test_rdid : answer { Block.reset with icnt := 3#6, idig := [0#4, 0#4, 0#4] } 0xA0000002
      = some ⟨false, 0x00000100#32⟩ ∧
    answer { Block.reset with icnt := 3#6, idig := [0#4, 0#4, 0#4] } 0xA0000003 = some ⟨false, 0#32⟩ := by decide
/-- V72's index: RDID 39 raises IDX. -/
theorem test_rdid_idx : answer Block.reset 0xA0000027 = some ⟨true, 0x00000037#32⟩ := by decide
/-- V75: an ILLEGAL word raises ILL and nothing else. -/
theorem test_illegal : answer Block.reset 0x200100FF = some ⟨true, 0x00000017#32⟩ ∧
    accAfter Block.reset 0x200100FF = some Block.reset.w := by decide

/-! ### The host's side -/

/-- T4: the positions of 0x3DCCCCCD. -/
theorem test_positions : floatPositions 0x3DCCCCCD#32
    = [123, 122, 119, 118, 115, 114, 111, 110, 107, 106, 103, 102, 100] := by decide
/-- T7: special values. -/
theorem test_special : renderSpecial 0x7F800000#32 = some ['i', 'n', 'f'] ∧
    renderSpecial 0xFF800000#32 = some ['-', 'i', 'n', 'f'] ∧ renderSpecial 0xFFC00000#32 = some ['n', 'a', 'n'] := by
  decide
/-- V56: -1.5. -/
theorem test_conversion : (conversion 0xBFC00000#32 Block.reset).2.2 = ['-', '1', '.', '5'] := by decide
/-- R90 and R91: any letter case, a comment, a signed operand. -/
theorem test_assemble : assemble ['s', 'e', 't', 'b', 'i', 't', ' ', '-', '2', '2', ' ', ';', 'x']
    = .ok [0x2000FFEA#32] := by decide
/-- R90: an unknown mnemonic refuses the program, naming its line. -/
theorem test_assemble_refuses : assemble ['N', 'O', 'P', '\n', 'X'] = .error ⟨2, .unknownMnemonic⟩ := by decide
/-- R91: an illegal word is printed as .word. -/
theorem test_disassemble_illegal : disassemble 0x7000000A#32
    = ['.', 'w', 'o', 'r', 'd', ' ', '0', 'x', '7', '0', '0', '0', '0', '0', '0', 'A'] := by decide


/-! ### Witnesses: a concrete state and operands for the hypotheses of each statement

The name after witness_ is the statement's. A statement without hypotheses has none. -/

/-- The next state of a command, as its rule gives it. -/
def after (i : Instr) (s : State) : State := s.commit (commandRule i s.block)

/-- A machine that has been reset, with these moves of the host to come. -/
def machineWith (ms : List HostMove) : State := { State.reset with moves := ms }

/-- A machine in which this response waits. -/
def waiting (r : Response) (ms : List HostMove) : State := { machineWith ms with rsp := some r }

/-- A block with full stores' counts, as far as the capacity checks see it. -/
def fullBlock : Block := { blockOf 1#32 1#32 0#32 with fcnt := 149#8, icnt := 39#6 }

theorem witness_DecodeOfEncode : Instr.wellFormed (.setbit (-32768)) = true ∧ Instr.wellFormed (.rdid 255) = true := by
  decide

theorem witness_EncodeOfDecode : decode 0x2000FFEA#32 = .ok (.setbit (-22)) := by decide

theorem witness_OpcodeMapSelectsCommand :
    (∃ r ∈ opcodeMap, 0x20008000#32 &&& r.mask = r.matchWord) ∧
    (∀ r ∈ opcodeMap, 0x70000000#32 &&& r.mask ≠ r.matchWord) := by decide

theorem witness_IllegalWordsRaiseIll : ∃ e, decode 0xF0000000#32 = .error e := ⟨.reservedOp, by decide⟩

theorem witness_NopReportsStatus : bits (0x00000001#32).toNat 31 28 = 0x0 ∧ 0x00000001#32 ≠ 0x00000000#32 := by decide

/-- The index range's ends, in the clause about RDW after CLR. -/
theorem witness_ClrClearsTheBlock : (0 ≤ 8) ∧ (8 ≤ 8) := by decide

/-- Both clauses at both ends of the legal positions. -/
theorem witness_SetbitSetsOneBit : ((-22 : Int) ≤ -22 ∧ (-22 : Int) ≤ 254) ∧ ((-22 : Int) ≤ 254 ∧ (254 : Int) ≤ 254) ∧
    ((-23 : Int) < -22 ∨ (254 : Int) < -23) ∧ ((255 : Int) < -22 ∨ (254 : Int) < 255) ∧
    (126 : Int) + 33 < 160 ∧ 160 ≤ (127 : Int) + 33 := by decide

theorem witness_ScalerLaw : ∀ p ∈ [(254 : Int), -22, 127, -22], -22 ≤ p ∧ p ≤ 254 := by decide

theorem witness_Fmul10MultipliesFraction : (machineOf { Block.reset with fcnt := 148#8 }).block.fcnt ≠ 149#8 ∧
    (machineOf fullBlock).block.fcnt = 149#8 := by decide

theorem witness_Idiv10DividesInteger : (machineOf { Block.reset with icnt := 38#6 }).block.icnt ≠ 39#6 ∧
    (machineOf fullBlock).block.icnt = 39#6 := by decide

/-- F = 0 needs one pass, from FCNT = 148 (it fits) and from 149 (it does not). -/
theorem witness_FrunLength_zero : fracPassesNeeded (machineOf Block.reset).block.fracValue 1 ∧ 148 + 1 ≤ 149 ∧
    149 < 149 + 1 := ⟨.inl (by decide), by decide, by decide⟩
/-- F = 2^11, the lowest bit a command can set, needs 149 passes: from FCNT = 0 they fit, from FCNT = 1 not (V62). -/
theorem witness_FrunLength_nonzero :
    fracPassesNeeded ({ Block.reset with w := #v[0x800#32, 0#32, 0#32, 0#32, 0#32, 0#32, 0#32, 0#32, 0#32] } : Block).fracValue
      149 ∧ 0 + 149 ≤ 149 ∧ 149 < 1 + 149 := ⟨.inr ⟨0, 11, by decide⟩, by decide, by decide⟩
theorem witness_FrunLength_empty : State.reset.block.fcnt = 0#8 ∧ State.reset.block.w[0].toNat % 2 ^ 11 = 0 := by decide

/-- I = 9 needs one pass, I = 10 two; the counts at which they fit and do not. -/
theorem witness_IrunLength : intPassesNeeded (machineOf (blockOf 0#32 9#32 0#32)).block.intValue 1 ∧
    intPassesNeeded (machineOf (blockOf 0#32 10#32 0#32)).block.intValue 2 ∧ 38 + 1 ≤ 39 ∧ 39 < 38 + 2 ∧
    State.reset.block.icnt = 0#6 :=
  ⟨.inl (by decide), .inr (by decide), by decide, by decide, by decide⟩

theorem witness_RunsEndAtZero : exec .frun State.reset = .next (after .frun State.reset) ∧
    errorResponse (after .frun State.reset) = false ∧ exec .irun State.reset = .next (after .irun State.reset) ∧
    errorResponse (after .irun State.reset) = false := ⟨rfl, by decide, rfl, by decide⟩

/-- 1.5: both runs succeed from empty stores, with a nonzero fraction and a nonzero integer part. -/
theorem witness_DigitsAreExact :
    let s := machineOf (blockOf 0x80000000#32 1#32 0#32)
    s.block.fcnt = 0#8 ∧ s.block.icnt = 0#6 ∧ s.block.fdig = [] ∧ s.block.idig = [] ∧
    exec .frun s = .next (after .frun s) ∧ errorResponse (after .frun s) = false ∧
    exec .irun (after .frun s) = .next (after .irun (after .frun s)) ∧
    errorResponse (after .irun (after .frun s)) = false ∧ s.block.fracValue ≠ 0 ∧ s.block.intValue ≠ 0 :=
  ⟨by decide, by decide, by decide, by decide, rfl, by decide, rfl, by decide, by decide, by decide⟩
/-- Zero: the same, with both parts zero. -/
theorem witness_DigitsAreExact_zero :
    errorResponse (after .irun (after .frun State.reset)) = false ∧ State.reset.block.fracValue = 0 ∧
    State.reset.block.intValue = 0 := by decide

/-- Two states that share the fraction side and differ in the integer side. -/
theorem witness_FractionAndIntegerIndependent_fraction :
    let s := machineOf (blockOf 0x80000000#32 1#32 0#32)
    let s' := machineOf { blockOf 0x80000000#32 7#32 9#32 with icnt := 5#6 }
    exec .fmul10 s = .next (after .fmul10 s) ∧ errorResponse (after .fmul10 s) = false ∧
    exec .fmul10 s' = .next (after .fmul10 s') ∧ (∀ k : Fin 9, k.val ≤ 4 → s'.block.w[k] = s.block.w[k]) ∧
    s'.block.fcnt = s.block.fcnt ∧ s'.block.fdig = s.block.fdig ∧ s'.block.digit = s.block.digit :=
  ⟨rfl, by decide, rfl, by decide, by decide, by decide, by decide⟩
/-- Two states that share the integer side and differ in the fraction side. -/
theorem witness_FractionAndIntegerIndependent_integer :
    let s := machineOf (blockOf 0x80000000#32 10#32 0#32)
    let s' := machineOf { blockOf 1#32 10#32 0#32 with fcnt := 5#8 }
    exec .irun s = .next (after .irun s) ∧ errorResponse (after .irun s) = false ∧
    exec .irun s' = .next (after .irun s') ∧ (∀ k : Fin 9, 5 ≤ k.val → s'.block.w[k] = s.block.w[k]) ∧
    s'.block.icnt = s.block.icnt ∧ s'.block.idig = s.block.idig ∧ s'.block.digit = s.block.digit :=
  ⟨rfl, by decide, rfl, by decide, by decide, by decide, by decide⟩

theorem witness_RunsCommute :
    let s := machineOf (blockOf 0x80000000#32 1#32 0#32)
    exec .frun s = .next (after .frun s) ∧ exec .irun (after .frun s) = .next (after .irun (after .frun s)) ∧
    exec .irun s = .next (after .irun s) ∧ exec .frun (after .irun s) = .next (after .frun (after .irun s)) ∧
    errorResponse (after .frun s) = false := ⟨rfl, rfl, rfl, rfl, by decide⟩
/-- The corner in which both runs fail from ERR = 0. -/
theorem witness_RunsCommute_corner :
    let s := machineOf fullBlock
    errorResponse (after .frun s) = true ∧ errorResponse (after .irun (after .frun s)) = true ∧
    s.block.err = false := by decide

theorem witness_RdwReadsWord : (0 ≤ 8) ∧ (8 ≤ 8) ∧ (8 < 9) := by decide

/-- One digit stored: index 0 below FCNT; 1 and 148 at or past it; 149 outside. -/
theorem witness_RdfdReadsDigit :
    let s := machineOf { Block.reset with fcnt := 1#8, fdig := [7#4] }
    0 < 149 ∧ 0 < s.block.fcnt.toNat ∧ 0 < s.block.fdig.length ∧ s.block.fcnt.toNat ≤ 1 ∧ 148 < 149 ∧
    s.block.fcnt.toNat ≤ 148 ∧ 149 ≤ 149 := by decide

/-- One digit stored: index 0 below ICNT; 1 and 38 at or past it; 39 outside. -/
theorem witness_RdidReadsDigit :
    let s := machineOf { Block.reset with icnt := 1#6, idig := [7#4] }
    0 < 39 ∧ 0 < s.block.icnt.toNat ∧ 0 < s.block.idig.length ∧ s.block.icnt.toNat ≤ 1 ∧ 38 < 39 ∧
    s.block.icnt.toNat ≤ 38 ∧ 39 ≤ 39 := by decide

/-- A read that succeeds twice, and one that fails. -/
theorem witness_ReadsHaveNoSideEffects : exec (.rdw 8) State.reset = .next (after (.rdw 8) State.reset) ∧
    errorResponse (after (.rdw 8) State.reset) = false ∧
    exec (.rdw 8) (after (.rdw 8) State.reset) = .next (after (.rdw 8) (after (.rdw 8) State.reset)) ∧
    exec (.rdw 9) State.reset = .next (after (.rdw 9) State.reset) ∧
    errorResponse (after (.rdw 9) State.reset) = true := ⟨rfl, by decide, rfl, rfl, by decide⟩

/-- exec answers a next state for every command of the statement, and both runs can fail. -/
theorem witness_ErrorExactlyWhen (i : Instr) : exec i (machineOf fullBlock) = .next (after i (machineOf fullBlock)) ∧
    errorResponse (after .frun (machineOf fullBlock)) = true ∧ errorResponse (after .irun (machineOf fullBlock)) = true := by
  refine ⟨?_, by decide, by decide⟩
  cases i <;> rfl

/-- Runs whose passes fit the store and do not: F = 0 and I = 0 need one pass each, from a count one below full and from a
full one. -/
theorem witness_ErrorExactlyWhen_runs :
    let s := machineOf { Block.reset with fcnt := 148#8, icnt := 38#6 }
    let s' := machineOf { Block.reset with fcnt := 149#8, icnt := 39#6 }
    fracPassesNeeded s.block.fracValue 1 ∧ intPassesNeeded s.block.intValue 1 ∧ s.block.fcnt.toNat ≤ 149 ∧
    s.block.icnt.toNat ≤ 39 ∧ ¬ 149 < s.block.fcnt.toNat + 1 ∧ ¬ 39 < s.block.icnt.toNat + 1 ∧
    errorResponse (after .frun s) = false ∧ errorResponse (after .irun s) = false ∧
    149 < s'.block.fcnt.toNat + 1 ∧ 39 < s'.block.icnt.toNat + 1 ∧
    errorResponse (after .frun s') = true ∧ errorResponse (after .irun s') = true :=
  ⟨.inl (by decide), .inl (by decide), by decide, by decide, by decide, by decide, by decide, by decide, by decide,
    by decide, by decide, by decide⟩

/-- A first error, and a second one. -/
theorem witness_FirstErrorIsKept :
    let s := machineOf Block.reset
    let t := after (.rdfd 149) s
    exec (.rdfd 149) s = .next t ∧ errorResponse t = true ∧ s.block.err = false ∧
    exec (.setbit (-23)) t = .next (after (.setbit (-23)) t) ∧ errorResponse (after (.setbit (-23)) t) = true ∧
    t.block.err = true ∧ exec .nop t = .next (after .nop t) ∧ errorResponse (after .nop t) = false :=
  ⟨rfl, by decide, by decide, rfl, by decide, by decide, rfl, by decide⟩

/-- A word that decodes and one that is ILLEGAL, both executed. -/
theorem witness_FirstErrorIsKept_word : execWord 0x00000000#32 State.reset = .next (after .nop State.reset) ∧
    decode 0x00000000#32 = .ok .nop ∧ decode 0x70000000#32 = .error .reservedOp ∧
    execWord 0x70000000#32 State.reset = .next (State.reset.commit (Block.reset.raiseError .ill)) :=
  ⟨rfl, by decide, by decide, rfl⟩

theorem witness_OnlyClrClearsErrors :
    let s := machineOf { Block.reset with err := true, ecode := 2#4 }
    Instr.nop ≠ .clr ∧ exec .nop s = .next (after .nop s) ∧ s.block.err = true ∧
    exec (.rdw 9) s = .next (after (.rdw 9) s) ∧ errorResponse (after (.rdw 9) s) = true ∧
    exec .clr s = .next (after .clr s) ∧ decode 0x10000001#32 = .error .nonzeroField ∧
    execWord 0x10000001#32 s = .next (s.commit (s.block.raiseError .ill)) :=
  ⟨by decide, rfl, by decide, rfl, by decide, rfl, by decide, rfl⟩

/-- FRUN that keeps one pass and then fails. -/
theorem witness_ErrorsArePrecise :
    let s := machineOf { blockOf 0xC0000000#32 0#32 0#32 with fcnt := 148#8 }
    exec .frun s = .next (after .frun s) ∧ errorResponse (after .frun s) = true ∧
    (∃ e, decode 0x70000000#32 = .error e) ∧
    execWord 0x70000000#32 s = .next (s.commit (s.block.raiseError .ill)) := ⟨rfl, by decide, ⟨.reservedOp, by decide⟩, rfl⟩

/-- SETBIT 127 sets absolute bit 160 and no other, 159 say. -/
theorem witness_AccumulatorWriters : exec (.setbit 127) State.reset = .next (after (.setbit 127) State.reset) ∧
    ((159 : Nat) : Int) ≠ 127 + 33 := ⟨rfl, by decide⟩

theorem witness_DigitStateWriters : exec .frun State.reset = .next (after .frun State.reset) := rfl

/-- The block after reset is good. -/
theorem reset_block_inv : Block.reset.Inv := by
  constructor <;> decide

theorem witness_StepKeepsInvariant : (machineWith [.reset]).Inv ∧
    step (machineWith [.reset]) = .next { State.reset with moves := [] } := ⟨reset_block_inv, rfl⟩

/-- An idle cycle-level machine after reset. -/
def idleCycle : CycleState := { machine := State.reset, running := none, offer := .idle }

/-- Pins with rst_n = 1 that offer this word, or nothing. -/
def offering (w : Word) : Pins := { rstN := true, cmdValid := true, cmdData := w, rspReady := true }

/-- Pins with rst_n = 0. -/
def resetPins : Pins := { rstN := false, cmdValid := false, cmdData := 0#32, rspReady := false }

/-- The reset edge in the last clause of OnlyClrClearsErrors. -/
theorem witness_OnlyClrClearsErrors_reset : resetPins.rstN = false ∧
    clockEdge resetPins idleCycle = .next (CycleState.afterReset idleCycle.machine) := ⟨by decide, rfl⟩

theorem witness_ClockEdgeKeepsInvariant : idleCycle.Inv ∧
    clockEdge resetPins idleCycle = .next (CycleState.afterReset idleCycle.machine) :=
  ⟨⟨reset_block_inv, .inl rfl⟩, rfl⟩

theorem witness_ResetMoveResets : (waiting ⟨true, 0x37#32⟩ [.reset, .take]).moves = .reset :: [.take] := by decide

theorem witness_StepRunsDecodedCommand : (machineWith [.command 0x50000000#32]).up = true ∧
    (machineWith [.command 0x50000000#32]).rsp = none ∧
    (machineWith [.command 0x50000000#32]).moves = .command 0x50000000#32 :: [] ∧
    decode 0x50000000#32 = .ok .frun := by decide

/-- Each case of the second clause, and a machine that is refused. -/
theorem witness_RefusedOnlyBeforeFirstReset : (machineWith [.take]).up = true ∧
    ({ machineWith [] with up := false } : State).moves = [] ∧
    ({ machineWith [.reset] with up := false } : State).moves = .reset :: [] ∧
    (({ machineWith [.take] with up := false } : State).up = false ∧ HostMove.take ≠ .reset) := by decide

/-- Each of the three moves, while a response waits. -/
theorem witness_ResponseIsHeldUntilTaken : (waiting ⟨false, 3#32⟩ [.command 0#32]).up = true ∧
    (waiting ⟨false, 3#32⟩ [.command 0#32]).rsp = some ⟨false, 3#32⟩ ∧
    (waiting ⟨false, 3#32⟩ [.command 0#32]).moves = .command 0#32 :: [] ∧
    (waiting ⟨false, 3#32⟩ [.unheldCommand]).moves = .unheldCommand :: [] ∧
    (waiting ⟨false, 3#32⟩ [.take]).moves = .take :: [] := by decide

theorem witness_UnheldWordRunsSomeWord : (machineWith [.unheldCommand]).up = true ∧
    (machineWith [.unheldCommand]).rsp = none ∧ (machineWith [.unheldCommand]).moves = .unheldCommand :: [] := by decide

theorem witness_ExecIsExecOnBlock : Instr.wellFormed (.setbit 32767) = true := by decide

theorem witness_HostRunIsFoldOfExec :
    let s := machineWith (hostRun [0x10000000#32, 0x2000007F#32] ++ [.reset])
    s.up = true ∧ s.rsp = none ∧ s.moves = hostRun [0x10000000#32, 0x2000007F#32] ++ [.reset] := by decide

theorem witness_LatencyBounds : Block.reset.Inv ∧ decode 0x50000000#32 = .ok .frun ∧
    decode 0x60000000#32 = .ok .irun ∧ Block.reset.fcnt = 0#8 ∧ Block.reset.icnt = 0#6 :=
  ⟨reset_block_inv, by decide, by decide, by decide, by decide⟩

/-- FRUN on 0.75, which makes two passes. -/
def cycleTwoPasses : CycleState := { idleCycle with machine := machineOf (blockOf 0xC0000000#32 0#32 0#32) }

/-- Acceptance at the first offered edge, and of a word held since an earlier edge. -/
theorem witness_CycleLevelRefinesExec :
    let c := cycleTwoPasses
    let p := offering 0x50000000#32
    c.machine.up = true ∧ c.running = none ∧ c.machine.rsp = none ∧ p.rstN = true ∧ p.cmdValid = true ∧
    p.cmdData = 0x50000000#32 ∧ dutyKept p c.offer = true ∧ dutyKept p (.held 0x50000000#32) = true := by decide
/-- The accepting edge alone, with the response still to come: two passes take at least two cycles. -/
theorem witness_RunsWord_executing : (∀ q ∈ ([] : List Pins), q.rstN = true) ∧
    ([] : List Pins).length + 1 < latency 0x50000000#32 cycleTwoPasses.machine.block := by
  refine ⟨by simp, ?_⟩
  have h : latency 0x50000000#32 cycleTwoPasses.machine.block = runLatency Config.latFpass 2 false := rfl
  simp only [h, runLatency, Config.latFpass, List.length_nil]
  omega
/-- As many edges as the latency: a NOP, at its end. -/
theorem witness_RunsWord_ended :
    let ps := List.replicate (latency 0#32 idleCycle.machine.block - 1) (offering 0#32)
    (∀ q ∈ ps, q.rstN = true) ∧ ps.length + 1 = latency 0#32 idleCycle.machine.block := by
  have h : latency 0#32 idleCycle.machine.block = Config.latSimpleAboveOne + 1 := rfl
  refine ⟨fun q hq => by rw [List.eq_of_mem_replicate hq]; rfl, ?_⟩
  rw [List.length_replicate, h]
  omega

/-- The word offered first is not the word offered at the accepting edge. -/
theorem witness_BrokenDutyRunsSomeWord :
    let c : CycleState := { idleCycle with offer := .held 0#32 }
    let p := offering 0x10000000#32
    c.machine.up = true ∧ c.running = none ∧ c.machine.rsp = none ∧ p.rstN = true ∧ p.cmdValid = true ∧
    dutyKept p c.offer = false ∧ dutyKept p .broken = false := by decide

/-- An edge of each kind the second clause tells apart: a reset, one before the first reset, one that accepts, one that
does not. -/
theorem witness_DutyMonitorFollowsTheOffer :
    let quiet : Pins := { offering 0#32 with cmdValid := false }
    let unborn : CycleState := { idleCycle with machine := { State.reset with up := false } }
    clockEdge resetPins idleCycle = .next (CycleState.afterReset idleCycle.machine) ∧
    clockEdge quiet unborn = .next unborn ∧
    (cmdReady (offering 0#32) cycleTwoPasses = true ∧ clockEdge (offering 0x50000000#32) cycleTwoPasses =
      .next { cycleTwoPasses with running := some ⟨0x50000000#32, 2 * Config.latFpass - 1⟩ }) ∧
    clockEdge quiet idleCycle = .next idleCycle := by
  refine ⟨rfl, rfl, ⟨rfl, ?_⟩, rfl⟩
  have h : latency 0x50000000#32 cycleTwoPasses.machine.block = 2 * Config.latFpass + 0 := rfl
  have hl : ¬ 2 * Config.latFpass + 0 ≤ 1 := by simp only [Config.latFpass]; omega
  have e : clockEdge (offering 0x50000000#32) cycleTwoPasses = advanceCommand 0x50000000#32
      (latency 0x50000000#32 cycleTwoPasses.machine.block) .idle cycleTwoPasses.machine := rfl
  rw [e, h, advanceCommand, if_neg hl]
  rfl
/-- A word held for two edges after a quiet one. -/
theorem test_monitor_held :
    [{ offering 7#32 with cmdValid := false }, offering 7#32, offering 7#32].foldl (fun o p => nextOffer p o) .idle
      = .held 7#32 := by decide
/-- R69: a word changed before acceptance breaks the duty. -/
theorem test_monitor_broken :
    [offering 7#32, offering 8#32].foldl (fun o p => nextOffer p o) .idle = .broken := by decide

theorem witness_IdleKeepsTheState :
    let p : Pins := { offering 0#32 with cmdValid := false }
    State.reset.moves = [] ∧ p.rstN = true ∧ p.cmdValid = false ∧ idleCycle.machine.up = true ∧
    idleCycle.running = none ∧ idleCycle.machine.rsp = none := by decide

/-- A standing error kept by a step that takes a response, by one without a move, and by a clock edge; and the three ways
it goes. -/
theorem witness_EveryStepKeepsErrors :
    let b : Block := { Block.reset with err := true, ecode := 2#4 }
    let s : State := { waiting ⟨true, 0x27#32⟩ [.take] with block := b }
    let c : CycleState := { idleCycle with machine := machineOf b }
    step s = .next { s with rsp := none, moves := [], taken := [⟨true, 0x27#32⟩] } ∧ s.block.err = true ∧
    step (machineOf b) = .next (machineOf b) ∧
    (offering 0#32).rstN = true ∧ clockEdge { offering 0#32 with cmdValid := false } c = .next c ∧
    c.machine.block.err = true ∧ (machineWith [.reset]).moves = .reset :: [] ∧
    (machineWith [.command 0x10000000#32]).ready = true ∧ decode 0x10000000#32 = .ok .clr ∧
    cmdReady (offering 0x10000000#32) c = true :=
  ⟨rfl, rfl, rfl, rfl, rfl, rfl, rfl, rfl, by decide, rfl⟩

/-- A step that draws its word, with an error standing: it answers the run of the very word drawn. -/
theorem witness_EveryStepKeepsErrors_unheld :
    let b : Block := { Block.reset with err := true, ecode := 2#4 }
    let s : State := { machineWith [.unheldCommand] with block := b }
    step s = .next ({ s with moves := [], draws := s.draws + 1 }.commit
      (transact b (Config.undeterminedWord s.draws))) ∧
    s.block.err = true ∧ s.ready = true ∧ s.moves = .unheldCommand :: [] :=
  ⟨execWord_eq_commit _ _, rfl, rfl, rfl⟩

/-- An accepting edge after a broken duty, with an error standing: it answers a next state. -/
theorem witness_EveryStepKeepsErrors_broken :
    let b : Block := { Block.reset with err := true, ecode := 2#4 }
    let c : CycleState := { idleCycle with machine := machineOf b, offer := .broken }
    let p := offering 0x10000000#32
    p.rstN = true ∧ (∃ c', clockEdge p c = .next c') ∧ c.machine.block.err = true ∧ cmdReady p c = true ∧
    p.cmdValid = true ∧ dutyKept p c.offer = false := by
  refine ⟨rfl, ?_, rfl, rfl, rfl, rfl⟩
  rw [clockEdge_accepting _ _ rfl rfl rfl rfl rfl]
  rcases acceptCommand_cases (offering 0x10000000#32) .broken
      (machineOf { Block.reset with err := true, ecode := 2#4 }) with ⟨h, _⟩ | ⟨_, h⟩
  · exact absurd h (by decide)
  · rw [h]
    rcases advanceCommand_cases (Config.undeterminedWord 0) (latency (Config.undeterminedWord 0)
        { Block.reset with err := true, ecode := 2#4 }) .idle
        { machineOf { Block.reset with err := true, ecode := 2#4 } with draws := 1 } with ⟨_, h⟩ | ⟨_, h⟩
    · exact ⟨_, h⟩
    · exact ⟨_, h⟩

/-- The row of each kind: an ILLEGAL word, a NOP, a failing read, both passes, both runs. -/
theorem witness_LatencyRows : decode 0x70000000#32 = .error .reservedOp ∧ decode 0x00000000#32 = .ok .nop ∧
    (transact Block.reset 0x80000009#32).2.err = true ∧ decode 0x80000009#32 = .ok (.rdw 9) ∧
    decode 0x30000000#32 = .ok .fmul10 ∧ (transact Block.reset 0x30000000#32).2.err = false ∧
    decode 0x40000000#32 = .ok .idiv10 ∧ (transact Block.reset 0x40000000#32).2.err = false ∧
    decode 0x50000000#32 = .ok .frun ∧ decode 0x60000000#32 = .ok .irun := by decide

theorem witness_ResetEdgeResets : resetPins.rstN = false := by decide

theorem witness_ResetEdgeOutputs : resetPins.rstN = false ∧ (offering 0#32).rstN = true := by decide

/-- A response waits; the host takes it or not. -/
theorem witness_CycleResponseHandshake :
    let c : CycleState := { idleCycle with machine := waiting ⟨false, 3#32⟩ [] }
    (offering 0#32).rstN = true ∧ c.machine.up = true ∧ c.machine.rsp = some ⟨false, 3#32⟩ ∧
    ({ offering 0#32 with rspReady := false } : Pins).rspReady = false ∧ (offering 0#32).rspReady = true := by decide

/-- The largest finite pattern and the smallest subnormal. -/
theorem witness_PositionsInRange : floatFinite 0x7F7FFFFF#32 = true ∧ floatExponent 0x7F7FFFFF#32 ≠ 0 ∧
    (254 : Int) ∈ floatPositions 0x7F7FFFFF#32 ∧ floatFinite 0x00000001#32 = true ∧ floatExponent 0x00000001#32 = 0 ∧
    (-22 : Int) ∈ floatPositions 0x00000001#32 := by decide

theorem witness_LoadfLoadsMagnitude : floatFinite 0x3F800000#32 = true ∧
    loadf 0x3F800000#32 = .ok [.clr, .setbit 127] := by decide

theorem witness_ConversionIsExact : floatFinite 0x80000000#32 = true ∧ floatSign 0x80000000#32 = true := by decide

theorem witness_NoHiddenState : floatFinite 0x3DCCCCCD#32 = true := by decide

theorem witness_SpecialValuesBypassTheBlock : floatExponent 0xFF800000#32 = 0xFF ∧ floatExponent 0x7FC00000#32 = 0xFF ∧
    floatMantissa 0x7FC00000#32 ≠ 0 ∧ floatMantissa 0xFF800000#32 = 0 := by decide

theorem witness_AssembleOfDisassemble : decode 0x20008000#32 = .ok (.setbit (-32768)) := by decide

end Sys2Proof.Machine.Tests
end

