-- ==== Sys2Proof/Proofs/AccumulatorViews.lean ====
section
/-! SUPPORT. The accumulator value word by word and bit by bit, and its two views as quotient and remainder
(spec/10_state.md R22, R23). -/

namespace Sys2Proof.Machine

theorem Block.accValue_eq_sum (b : Block) : b.accValue = ∑ k : Fin 9, b.w[k].toNat * 2 ^ (32 * k.val) := by
  simp [Block.accValue, Fin.sum_univ_castSucc]

theorem Block.fracValue_eq_sum (b : Block) :
    b.fracValue = ∑ k : Fin 5, (b.w[k.val]'(by have := k.isLt; omega)).toNat * 2 ^ (32 * k.val) := by
  simp [Block.fracValue, Fin.sum_univ_castSucc]

theorem Block.intValue_eq_sum (b : Block) :
    b.intValue = ∑ k : Fin 4, (b.w[5 + k.val]'(by have := k.isLt; omega)).toNat * 2 ^ (32 * k.val) := by
  simp [Block.intValue, Fin.sum_univ_castSucc]

theorem Block.accValue_lt (b : Block) : b.accValue < 2 ^ 288 := by
  have hF := b.fracValue_lt
  have hI := b.intValue_lt
  have hV := b.accValue_eq
  omega

theorem Block.fracValue_eq_mod (b : Block) : b.fracValue = b.accValue % 2 ^ 160 := by
  have hF := b.fracValue_lt
  have hV := b.accValue_eq
  omega

theorem Block.intValue_eq_div (b : Block) : b.intValue = b.accValue / 2 ^ 160 := by
  have hF := b.fracValue_lt
  have hV := b.accValue_eq
  omega

/-- Word k is the k-th digit of V in base 2^32 (R22). -/
theorem Block.word_eq_accValue_digit (b : Block) (k : Fin 9) :
    b.w[k].toNat = b.accValue / 2 ^ (32 * k.val) % 2 ^ 32 := by
  fin_cases k <;> simp [Block.accValue] <;> omega

/-- Absolute bit j of V is bit j mod 32 of W[j div 32] (R9, R22). -/
theorem Block.accValue_testBit (b : Block) (j : Fin 288) :
    b.accValue.testBit j.val = (b.w[j.val / 32]'(by have := j.isLt; omega)).toNat.testBit (j.val % 32) := by
  have hword := b.word_eq_accValue_digit ⟨j.val / 32, by have := j.isLt; omega⟩
  simp only [Fin.getElem_fin] at hword
  rw [hword, Nat.testBit_mod_two_pow, Nat.testBit_div_two_pow, Nat.mod_add_div]
  simp [Nat.mod_lt]

end Sys2Proof.Machine
end

