-- ==== Sys2Proof/Proofs/Status.lean ====
section
/-! SUPPORT. STATUS as the weighted sum of its fields (spec/10_state.md R34, R35). -/

namespace Sys2Proof.Machine

/-- Appending bit vectors is adding the numbers, the upper one weighted by the width of the lower one. -/
theorem toNat_append_eq_add {m n : Nat} (x : BitVec m) (y : BitVec n) :
    (x ++ y).toNat = x.toNat * 2 ^ n + y.toNat := by
  rw [BitVec.toNat_append, Nat.shiftLeft_eq, Nat.mul_comm, ← Nat.two_pow_add_eq_or_of_lt y.isLt]

/-- The layout of STATUS (R35), with the reserved bit 3 and bits 31:26 absent from the sum. -/
theorem Block.status_toNat (b : Block) :
    b.status.toNat = b.icnt.toNat * 2 ^ 20 + b.fcnt.toNat * 2 ^ 12 + b.digit.toNat * 2 ^ 8 + b.ecode.toNat * 2 ^ 4
      + b.err.toNat * 2 ^ 2 + b.iz.toNat * 2 + b.fz.toNat := by
  have herr := b.err.toNat_lt
  have hiz := b.iz.toNat_lt
  have hfz := b.fz.toNat_lt
  simp only [Block.status, BitVec.toNat_setWidth, toNat_append_eq_add, BitVec.toNat_ofBool, BitVec.toNat_ofNat]
  omega

/-- FZ as a bit (R34). -/
theorem Block.fz_toNat (b : Block) : b.fz.toNat = if b.fracValue = 0 then 1 else 0 := by
  simp only [← b.fz_eq_true]
  cases b.fz <;> rfl

/-- IZ as a bit (R34). -/
theorem Block.iz_toNat (b : Block) : b.iz.toNat = if b.intValue = 0 then 1 else 0 := by
  simp only [← b.iz_eq_true]
  cases b.iz <;> rfl

end Sys2Proof.Machine
end

