-- ==== Sys2Proof/Proofs/StickyErrors.lean ====
section
/-! SUPPORT. What every command but CLR, and every ILLEGAL word, does to the error pair (spec/10_state.md R32,
spec/60_exceptions.md R177 to R179). -/

namespace Sys2Proof.Machine

/-- ERR and ECODE of a are those of b. -/
def Block.SameErrors (a b : Block) : Prop := a.err = b.err ∧ a.ecode = b.ecode

theorem Block.SameErrors.refl (b : Block) : b.SameErrors b := ⟨rfl, rfl⟩

theorem Block.SameErrors.trans {a b c : Block} (hab : a.SameErrors b) (hbc : b.SameErrors c) : a.SameErrors c :=
  ⟨hab.1.trans hbc.1, hab.2.trans hbc.2⟩

/-- The result r of a command run in block b touches the error pair only by how it ends: from a block that still has
b's pair it responds, or raises an error of this code (R177, R179). -/
inductive EndsFrom (b : Block) (code : Option ErrorCode) : Block × Response → Prop where
  | success (a : Block) (data : Word) (h : a.SameErrors b) : EndsFrom b code (a.respond data)
  | error (a : Block) (c : ErrorCode) (hc : code = some c) (h : a.SameErrors b) : EndsFrom b code (a.raiseError c)

/-- An error response leaves ERR = 1 (R178). -/
theorem EndsFrom.err_of_error {b : Block} {code : Option ErrorCode} {r : Block × Response} (h : EndsFrom b code r)
    (hr : r.2.err = true) : r.1.err = true := by
  cases h with
  | success a data h => simp at hr
  | error a c hc h => simp

/-- A standing error stays, with its code (R32, R178). -/
theorem EndsFrom.keeps_error {b : Block} {code : Option ErrorCode} {r : Block × Response} (h : EndsFrom b code r)
    (hb : b.err = true) : r.1.err = true ∧ r.1.ecode = b.ecode := by
  cases h with
  | success a data h => exact ⟨h.1.trans hb, h.2⟩
  | error a c hc h => simp [h.1, h.2, hb]

/-- The one error a command's rule can raise (R173 to R176). -/
def raisableError : Instr → Option ErrorCode
  | .nop | .clr => none
  | .setbit _ => some .pos
  | .fmul10 | .frun => some .fovf
  | .idiv10 | .irun => some .iovf
  | .rdw _ | .rdfd _ | .rdid _ => some .idx

theorem fracPass_sameErrors {a b : Block} (h : fracPass a = .ok b) : b.SameErrors a := by
  obtain ⟨-, -, -, -, -, -, hb⟩ := fracPass_ok a b h
  rw [hb]
  exact ⟨rfl, rfl⟩

theorem intPass_sameErrors {a b : Block} (h : intPass a = .ok b) : b.SameErrors a := by
  obtain ⟨-, -, -, -, -, -, hb⟩ := intPass_ok a b h
  rw [hb]
  exact ⟨rfl, rfl⟩

theorem fracPass_error {b : Block} {c : ErrorCode} (h : fracPass b = .error c) : c = .fovf := by
  rcases fracPass_cases b with ⟨-, hp⟩ | ⟨-, hp⟩ <;> rw [hp] at h <;> cases h
  rfl

theorem intPass_error {b : Block} {c : ErrorCode} (h : intPass b = .error c) : c = .iovf := by
  rcases intPass_cases b with ⟨-, hp⟩ | ⟨-, hp⟩ <;> rw [hp] at h <;> cases h
  rfl

section
variable {pass : Block → Except ErrorCode Block} {e : ErrorCode}
  (hok : ∀ a b, pass a = .ok b → b.SameErrors a) (herr : ∀ b c, pass b = .error c → c = e)
include hok herr

/-- A run of passes, answered by finish: the passes keep the error pair, and the pass that ends the run with
an error raises its own. -/
theorem endsFrom_run (done : Block → Bool) (fuel : Nat) (b : Block) :
    EndsFrom b (some e) (finish (repeatPass pass done fuel b)) := by
  have hkeep : (repeatPass pass done fuel b).1.SameErrors b :=
    repeatPass_induct pass done (fun a z => z.SameErrors a) .refl (fun a m z hm hz => hz.trans (hok a m hm)) fuel b
  obtain ⟨n, -, -, ⟨hnone, -⟩ | ⟨hnone, -⟩ | ⟨c, hsome, hpass⟩⟩ := repeatPass_cases pass done fuel b
  · rw [finish, hnone]; exact .success _ _ hkeep
  · rw [finish, hnone]; exact .success _ _ hkeep
  · rw [finish, hsome]; exact .error _ c (congrArg some (herr _ c hpass).symm) hkeep

end

/-- FMUL10 is a run that ends after one pass (R130, R132). -/
theorem fmul10Command_eq_run (b : Block) :
    fmul10Command b = finish (repeatPass fracPass (fun _ => true) 1 b) := by
  unfold fmul10Command repeatPass
  cases fracPass b <;> rfl

/-- IDIV10 is a run that ends after one pass (R131, R133). -/
theorem idiv10Command_eq_run (b : Block) :
    idiv10Command b = finish (repeatPass intPass (fun _ => true) 1 b) := by
  unfold idiv10Command repeatPass
  cases intPass b <;> rfl

/-- How every command but CLR ends. -/
theorem commandRule_endsFrom (i : Instr) (b : Block) (hi : i ≠ .clr) :
    EndsFrom b (raisableError i) (commandRule i b) := by
  have hfrac := endsFrom_run (e := .fovf) (fun _ _ => fracPass_sameErrors) (fun _ _ => fracPass_error)
  have hint := endsFrom_run (e := .iovf) (fun _ _ => intPass_sameErrors) (fun _ _ => intPass_error)
  cases i with
  | nop => exact .success b _ (.refl b)
  | clr => exact absurd rfl hi
  | setbit pos =>
    simp only [commandRule, setbitCommand]
    split
    · exact .error b _ rfl (.refl b)
    · exact .success _ _ ⟨Block.setAccBit_err b _, Block.setAccBit_ecode b _⟩
  | fmul10 =>
    rw [commandRule, fmul10Command_eq_run]
    exact hfrac _ _ b
  | idiv10 =>
    rw [commandRule, idiv10Command_eq_run]
    exact hint _ _ b
  | frun => exact hfrac Block.fz 160 b
  | irun => exact hint Block.iz 39 b
  | rdw k | rdfd k | rdid k =>
    simp only [commandRule, rdwCommand, rdfdCommand, rdidCommand]
    split
    · exact .error b _ rfl (.refl b)
    · exact .success b _ (.refl b)

/-- CLR puts the block in its reset state (R121, R205) and responds. -/
theorem commandRule_clr (b : Block) : commandRule .clr b = Block.reset.respond Block.reset.status := rfl

/-- An ILLEGAL word raises ILL (R172). -/
theorem transact_illegal {w : Word} {e : DecodeError} (h : decode w = .error e) (b : Block) :
    transact b w = b.raiseError .ill := by
  simp [transact, h]

/-- The response exec leaves is its rule's, so the state's error response is too. -/
@[simp] theorem errorResponse_commit (s : State) (r : Block × Response) : errorResponse (s.commit r) = r.2.err := rfl

end Sys2Proof.Machine
end

