-- ==== Sys2Proof/Proofs/StateFamily.lean ====
section
/-! The statements of spec/10_state.md. -/

open Sys2Proof Sys2Proof.Machine

/-- Settles O6: V splits at the binary point into I above and F below, and word k is its k-th digit in base 2^32. -/
theorem accumulatorViews : Obligations.AccumulatorViews := by
  unfold Obligations.AccumulatorViews
  intro b
  refine ⟨b.accValue_eq_sum, b.accValue_lt, b.accValue_testBit, b.fracValue_eq_mod, b.fracValue_eq_sum,
    b.intValue_eq_div, b.intValue_eq_sum, b.intValue_lt, ?_⟩
  rw [b.accValue_eq]
  push_cast
  ring

/-- Settles O7: each field is read off the weighted sum that STATUS is. -/
theorem statusFields : Obligations.StatusFields := by
  unfold Obligations.StatusFields
  intro b
  have herr := b.err.toNat_lt
  have hiz := b.iz.toNat_lt
  have hfz := b.fz.toNat_lt
  have hif : (if b.err = true then 1 else 0) = b.err.toNat := by cases b.err <;> rfl
  rw [← b.fz_toNat, ← b.iz_toNat, hif, b.status_toNat]
  simp only [bits]
  omega

/-- Settles O26: every command but CLR, and every ILLEGAL word, ends in a way that keeps a standing error; CLR and a
reset edge give the reset block. -/
theorem onlyClrClearsErrors : Obligations.OnlyClrClearsErrors := by
  unfold Obligations.OnlyClrClearsErrors
  refine ⟨fun i s t h => ?_, fun w s t ⟨e, hw⟩ h => ?_, fun p c c' hp h => ?_⟩
  · obtain rfl := exec_next i s t h
    by_cases hi : i = .clr
    · subst hi
      simp [commandRule_clr, Block.reset]
    · have hend := commandRule_endsFrom i s.block hi
      exact ⟨hend.err_of_error, fun _ => hend.keeps_error, fun hc => absurd hc hi⟩
  · rw [execWord_eq_commit, transact_illegal hw] at h
    obtain rfl := Host.Outcome.next.inj h
    simp +contextual
  · rw [clockEdge_reset p c hp] at h
    obtain rfl := Host.Outcome.next.inj h
    exact ⟨rfl, rfl⟩

end

