-- ==== Sys2Proof/Proofs/MemoryFamily.lean ====
section
/-! The statement of spec/20_memory.md on the reading commands. -/

namespace Sys2Proof.Machine

/-- How a reading command ends, in the block it was issued in: it responds, or raises IDX (R56, R120, R150 to R152). -/
theorem commandRule_read {i : Instr} (hi : i = .nop ∨ ∃ k, i = .rdw k ∨ i = .rdfd k ∨ i = .rdid k) (b : Block) :
    (∃ data, commandRule i b = b.respond data) ∨ commandRule i b = b.raiseError .idx := by
  obtain rfl | ⟨k, rfl | rfl | rfl⟩ := hi
  · exact .inl ⟨b.status, rfl⟩
  all_goals
    simp only [commandRule, rdwCommand, rdfdCommand, rdidCommand]
    split
    · exact .inr rfl
    · exact .inl ⟨_, rfl⟩

end Sys2Proof.Machine

open Sys2Proof Sys2Proof.Machine

/-- Settles O23: a read that responds leaves the block to which its rule is applied again, and raising an error touches
ERR and ECODE alone. -/
theorem readsHaveNoSideEffects : Obligations.ReadsHaveNoSideEffects := by
  unfold Obligations.ReadsHaveNoSideEffects
  intro i hi s t hst
  obtain rfl := exec_next i s t hst
  obtain ⟨data, hrule⟩ | hrule := commandRule_read hi s.block
  · have hblock : (s.commit (commandRule i s.block)).block = s.block := by simp [hrule]
    refine ⟨fun _ => ⟨hblock, fun u htu => ?_⟩, by rw [hblock]⟩
    obtain rfl := exec_next i _ u htu
    simp [hrule]
  · refine ⟨fun hok => ?_, by rw [hrule]; rfl⟩
    simp [hrule] at hok

end

