-- ==== Sys2Proof/Proofs/OpcodeMap.lean ====
section
/-! SUPPORT. The rows of the opcode map as fields of a word: a row asks for its OP in bits 31:28 and for zeros from
bit 27 down to its operand (spec/30_encoding.md R81 to R85, R88). -/

namespace Sys2Proof

open Sys2Proof.Laws.OpField (opOf)

/-- OP, bits 31:28, is what stands above bit 28: a word has no higher bit. -/
theorem bits_op_eq_div (w : Word) : bits w.toNat 31 28 = w.toNat / 2 ^ 28 :=
  Nat.mod_eq_of_lt (by have := w.isLt; omega)

theorem toNat_and_highMask (w : Word) (lo : Nat) :
    (w &&& (BitVec.allOnes 32 <<< lo)).toNat = w.toNat / 2 ^ lo * 2 ^ lo := by
  rw [← BitVec.shiftLeft_ushiftRight, BitVec.toNat_shiftLeft, BitVec.toNat_ushiftRight, Nat.shiftLeft_eq,
    Nat.shiftRight_eq_div_pow, Nat.mod_eq_of_lt ((Nat.div_mul_le_self _ _).trans_lt w.isLt)]

/-- Clearing the bits below lo leaves OP op and nothing else exactly when bits 31:28 are op and bits 27:lo are 0. -/
theorem and_highMask_eq_iff (w : Word) {op lo : Nat} (hop : op < 16) (hlo : lo ≤ 28) :
    w &&& (BitVec.allOnes 32 <<< lo) = BitVec.ofNat 32 (op * 2 ^ 28) ↔
      bits w.toNat 31 28 = op ∧ bits w.toNat 27 lo = 0 := by
  have hpow : 2 ^ 28 = 2 ^ lo * 2 ^ (28 - lo) := (pow_mul_pow_sub 2 hlo).symm
  have hmatch : (BitVec.ofNat 32 (op * 2 ^ 28)).toNat = 2 ^ (28 - lo) * op * 2 ^ lo := by
    rw [BitVec.toNat_ofNat, Nat.mod_eq_of_lt (by omega), hpow]
    ring
  have hop_div : bits w.toNat 31 28 = w.toNat / 2 ^ lo / 2 ^ (28 - lo) := by
    rw [bits_op_eq_div, Nat.div_div_eq_div_mul, ← hpow]
  have hfield : bits w.toNat 27 lo = w.toNat / 2 ^ lo % 2 ^ (28 - lo) := rfl
  rw [← BitVec.toNat_inj, toNat_and_highMask, hmatch, Nat.mul_left_inj (by positivity), hop_div, hfield,
    Nat.div_mod_unique (by positivity)]
  simp [eq_comm]

/-- What a row of the opcode map says by fields: its words ask for OP op and for zeros in bits 27:lo, and a word with
OP op decodes as the row's command if those bits are 0 and not at all if they are not. -/
structure OpcodeRow.HasFields (r : OpcodeRow) (op lo : Nat) : Prop where
  op_lt : op < 16
  lo_le : lo ≤ 28
  matchWord_eq : r.matchWord = BitVec.ofNat 32 (op * 2 ^ 28)
  mask_eq : r.mask = BitVec.allOnes 32 <<< lo
  opOf_command : ∀ w, opOf (r.command w) = op
  decode_eq : ∀ w, bits w.toNat 31 28 = op →
    decode w = if bits w.toNat 27 lo = 0 then .ok (r.command w) else .error .nonzeroField

/-- Every row of the opcode map has fields: format N is zero from bit 27 to 0, S to 16, X to 8 (R82 to R84). -/
theorem exists_hasFields_of_mem {r : OpcodeRow} (hr : r ∈ opcodeMap) : ∃ op lo, r.HasFields op lo := by
  simp only [opcodeMap, List.mem_cons, List.not_mem_nil, or_false] at hr
  rcases hr with rfl | rfl | rfl | rfl | rfl | rfl | rfl | rfl | rfl | rfl <;>
    [refine ⟨0x0, 0, ?_⟩; refine ⟨0x1, 0, ?_⟩; refine ⟨0x2, 16, ?_⟩; refine ⟨0x3, 0, ?_⟩; refine ⟨0x4, 0, ?_⟩;
      refine ⟨0x5, 0, ?_⟩; refine ⟨0x6, 0, ?_⟩; refine ⟨0x8, 8, ?_⟩; refine ⟨0x9, 8, ?_⟩; refine ⟨0xA, 8, ?_⟩]
  all_goals exact ⟨by decide, by decide, by decide, by decide, fun _ => rfl, fun w h => by rw [decode, h]; rfl⟩

/-- A row selects a word by its OP and its zero field. -/
theorem OpcodeRow.HasFields.selects_iff {r : OpcodeRow} {op lo : Nat} (h : r.HasFields op lo) (w : Word) :
    w &&& r.mask = r.matchWord ↔ bits w.toNat 31 28 = op ∧ bits w.toNat 27 lo = 0 := by
  rw [h.mask_eq, h.matchWord_eq, and_highMask_eq_iff w h.op_lt h.lo_le]

/-- A word decodes only as a command of the OP it holds (R81). -/
theorem opOf_of_decode {w : Word} {i : Instr} (h : decode w = .ok i) : opOf i = bits w.toNat 31 28 := by
  obtain h | h | h | h | h | h | h | h | h | h := decode_eq_ok w i h
  all_goals
    obtain ⟨hop, -, rfl⟩ := h
    exact hop.symm

/-- Every command the decoder reads is that of a row. -/
theorem exists_row_of_decode {w : Word} {i : Instr} (h : decode w = .ok i) : ∃ r ∈ opcodeMap, r.command w = i := by
  obtain h | h | h | h | h | h | h | h | h | h := decode_eq_ok w i h
  all_goals
    obtain ⟨-, -, rfl⟩ := h
    simp [opcodeMap]

/-- A row selects a word exactly when the word decodes to the row's command. -/
theorem selects_iff_decode {r : OpcodeRow} (hr : r ∈ opcodeMap) (w : Word) :
    w &&& r.mask = r.matchWord ↔ decode w = .ok (r.command w) := by
  obtain ⟨op, lo, hf⟩ := exists_hasFields_of_mem hr
  rw [hf.selects_iff]
  constructor
  · rintro ⟨hop, hzero⟩
    rw [hf.decode_eq w hop, if_pos hzero]
  · intro hdec
    have hop : bits w.toNat 31 28 = op := by rw [← opOf_of_decode hdec, hf.opOf_command]
    refine ⟨hop, by_contra fun hzero => ?_⟩
    rw [hf.decode_eq w hop, if_neg hzero] at hdec
    cases hdec

/-- A row that selects a word has the word's OP in its match word, and no other bit. -/
theorem matchWord_of_selects {r : OpcodeRow} (hr : r ∈ opcodeMap) {w : Word} (h : w &&& r.mask = r.matchWord) :
    r.matchWord = BitVec.ofNat 32 (bits w.toNat 31 28 * 2 ^ 28) := by
  obtain ⟨op, lo, hf⟩ := exists_hasFields_of_mem hr
  rw [hf.matchWord_eq, ((hf.selects_iff w).mp h).1]

theorem opcodeMap_matchWords_nodup : (opcodeMap.map OpcodeRow.matchWord).Nodup := by decide

/-- At most one row selects a word: the selecting rows share one match word, and the map repeats none. -/
theorem selecting_rows_length_le_one (w : Word) : (opcodeMap.filter fun r => r.selects w).length ≤ 1 := by
  have hnodup : ((opcodeMap.filter fun r => r.selects w).map OpcodeRow.matchWord).Nodup :=
    opcodeMap_matchWords_nodup.sublist (List.filter_sublist.map _)
  have hsame : ∀ m ∈ (opcodeMap.filter fun r => r.selects w).map OpcodeRow.matchWord,
      m = BitVec.ofNat 32 (bits w.toNat 31 28 * 2 ^ 28) := by
    intro m hm
    obtain ⟨r, hr, rfl⟩ := List.mem_map.mp hm
    obtain ⟨hmem, hsel⟩ := List.mem_filter.mp hr
    exact matchWord_of_selects hmem (by simpa [OpcodeRow.selects] using hsel)
  rwa [List.eq_replicate_of_mem hsame, List.nodup_replicate, List.length_map] at hnodup

/-- A word no row selects is illegal. -/
theorem decode_error_of_no_row {w : Word} (h : ∀ r ∈ opcodeMap, w &&& r.mask ≠ r.matchWord) :
    ∃ e, decode w = .error e := by
  cases hdec : decode w with
  | error e => exact ⟨e, rfl⟩
  | ok i =>
    obtain ⟨r, hr, rfl⟩ := exists_row_of_decode hdec
    exact absurd ((selects_iff_decode hr w).mpr hdec) (h r hr)

end Sys2Proof
end

