-- ==== Sys2Proof/Proofs/EncodingFamily.lean ====
section
/-! The statement of spec/30_encoding.md on the opcode map. -/

open Sys2Proof Sys2Proof.Machine

/-- Settles O3: a row selects by OP and zero field, which is how the decoder reads its command; rows differ in OP, and
every command decoded is some row's. -/
theorem opcodeMapSelectsCommand : Obligations.OpcodeMapSelectsCommand := by
  unfold Obligations.OpcodeMapSelectsCommand
  exact fun w => ⟨fun _ hr => selects_iff_decode hr w, selecting_rows_length_le_one w, decode_error_of_no_row⟩

end

