-- ==== Sys2Proof/Proofs/ScalerFamily.lean ====
section
/-! The statement of spec/41_scaler.md on NOP, and the words of a command without an operand. -/

namespace Sys2Proof

open Sys2Proof.Laws.OpField (opOf)

/-- A row that masks no bit away has one word, its match word (R82, R85). -/
theorem decode_eq_ok_iff_of_fullMask {m : Word} {i : Instr}
    (hr : (⟨m, 0xFFFFFFFF#32, fun _ => i⟩ : OpcodeRow) ∈ opcodeMap) (w : Word) : decode w = .ok i ↔ w = m := by
  have hmask : w &&& 0xFFFFFFFF#32 = w := BitVec.and_allOnes
  rw [← selects_iff_decode hr w, hmask]

theorem decode_eq_ok_nop_iff (w : Word) : decode w = .ok .nop ↔ w = 0x00000000#32 :=
  decode_eq_ok_iff_of_fullMask List.mem_cons_self w

theorem eq_nop_of_opOf_eq_zero {i : Instr} (h : opOf i = 0x0) : i = .nop := by
  cases i with
  | nop => rfl
  | _ => cases h

/-- NOP is the only command of OP 0, so a word of OP 0 that is not NOP's is ILLEGAL (R88, R120). -/
theorem decode_error_of_op_zero {w : Word} (hop : bits w.toNat 31 28 = 0x0) (hw : w ≠ 0x00000000#32) :
    ∃ e, decode w = .error e := by
  cases hdec : decode w with
  | error e => exact ⟨e, rfl⟩
  | ok i =>
    obtain rfl : i = .nop := eq_nop_of_opOf_eq_zero ((opOf_of_decode hdec).trans hop)
    exact absurd ((decode_eq_ok_nop_iff w).mp hdec) hw

end Sys2Proof

namespace Sys2Proof.Machine

/-- STATUS of the reset block: both views are zero, every other field is 0 (R34, R35, R42). -/
theorem Block.reset_status : Block.reset.status = 0x00000003#32 := by decide

theorem nop_succeeds (s : State) : Succeeds .nop s s.block s.block.status :=
  (succeeds_iff .nop s s.block s.block.status).mpr rfl

end Sys2Proof.Machine

open Sys2Proof Sys2Proof.Machine

/-- Settles O8: NOP's row masks no bit away, its rule responds STATUS, and after reset that is the reset block's. -/
theorem nopReportsStatus : Obligations.NopReportsStatus := by
  unfold Obligations.NopReportsStatus
  refine ⟨decode_eq_ok_nop_iff, fun w => decode_error_of_op_zero, nop_succeeds, ?_⟩
  rw [← Block.reset_status]
  exact nop_succeeds State.reset

end

