-- ==== Sys2Proof/Proofs/SpecialValues.lean ====
section
/-! SUPPORT. The patterns with exponent field 0xFF: their class, the refusal of CONVERT and the host's text
(spec/30_encoding.md R93, R95, spec/43_readout.md R154). -/

namespace Sys2Proof.Machine

/-- CONVERT refuses the patterns that are not finite, with their class (R92, R95). -/
theorem convert_eq_error {b : Word} (h : floatExponent b = 0xFF) : convert b = .error (floatClass b) := by
  have hfinite : floatFinite b = false := by simp [floatFinite, h]
  simp [convert, loadf, hfinite]

/-- A refused conversion leaves the block alone: no command, no response, and the host's own text. -/
theorem conversion_of_convert_error {b : Word} {c : FloatClass} (h : convert b = .error c) (start : Block) :
    conversion b start = (start, [], (renderSpecial b).getD []) := by
  simp only [conversion, h]

theorem floatClass_eq_nan {b : Word} (h : floatExponent b = 0xFF) (hm : floatMantissa b ≠ 0) :
    floatClass b = .nan := by
  rw [floatClass, if_pos h, if_neg hm]

theorem floatClass_eq_infinity {b : Word} (h : floatExponent b = 0xFF) (hm : floatMantissa b = 0) :
    floatClass b = .infinity := by
  rw [floatClass, if_pos h, if_pos hm]

theorem renderSpecial_of_nan {b : Word} (h : floatClass b = .nan) : renderSpecial b = some ['n', 'a', 'n'] := by
  simp only [renderSpecial, h]

theorem renderSpecial_of_infinity {b : Word} (h : floatClass b = .infinity) :
    renderSpecial b = some (if floatSign b = true then ['-', 'i', 'n', 'f'] else ['i', 'n', 'f']) := by
  simp only [renderSpecial, h]
  cases floatSign b <;> rfl

/-- The text of a pattern with exponent field 0xFF: a mantissa makes it a NaN, and an infinity shows its sign (R154). -/
theorem renderSpecial_of_exponent {b : Word} (h : floatExponent b = 0xFF) :
    renderSpecial b = some (if floatMantissa b ≠ 0 then ['n', 'a', 'n']
      else if floatSign b = true then ['-', 'i', 'n', 'f'] else ['i', 'n', 'f']) := by
  by_cases hm : floatMantissa b = 0
  · rw [if_neg (not_not.mpr hm), renderSpecial_of_infinity (floatClass_eq_infinity h hm)]
  · rw [if_pos hm, renderSpecial_of_nan (floatClass_eq_nan h hm)]

end Sys2Proof.Machine
end

