-- ==== Sys2Proof/Proofs/ReadoutFamily.lean ====
section
/-! The statement of spec/43_readout.md on the special values. -/

open Sys2Proof Sys2Proof.Machine

/-- Settles O48: CONVERT refuses the pattern, so the block is never reached and the text is the host's, by class and
sign. -/
theorem specialValuesBypassTheBlock : Obligations.SpecialValuesBypassTheBlock := by
  unfold Obligations.SpecialValuesBypassTheBlock
  intro b start h
  have hrefused := convert_eq_error h
  rw [conversion_of_convert_error hrefused, renderSpecial_of_exponent h]
  exact ⟨⟨_, hrefused⟩, rfl, rfl, rfl⟩

end

