-- ==== Sys2Proof/Proofs/IllegalWords.lean ====
section
/-! SUPPORT. The words the decoder rejects, format by format, and what accepting one does (spec/30_encoding.md R82 to
R88, spec/60_exceptions.md R172). -/

namespace Sys2Proof

theorem decodeN_illegal_iff {i : Instr} {w : Nat} : (∃ e, decodeN i w = .error e) ↔ bits w 27 0 ≠ 0 := by
  by_cases h : bits w 27 0 = 0 <;> simp [decodeN, h]

theorem decodeS_illegal_iff {i : Int → Instr} {w : Nat} : (∃ e, decodeS i w = .error e) ↔ bits w 27 16 ≠ 0 := by
  by_cases h : bits w 27 16 = 0 <;> simp [decodeS, h]

theorem decodeX_illegal_iff {i : Nat → Instr} {w : Nat} : (∃ e, decodeX i w = .error e) ↔ bits w 27 8 ≠ 0 := by
  by_cases h : bits w 27 8 = 0 <;> simp [decodeX, h]

/-- The decoder rejects a word for its OP, or for its format's zero field (R86 to R88). -/
theorem decode_illegal_iff (w : Word) :
    (∃ e, decode w = .error e) ↔
      (bits w.toNat 31 28 ∈ [0x7, 0xB, 0xC, 0xD, 0xE, 0xF] ∨
       (bits w.toNat 31 28 ∈ [0x0, 0x1, 0x3, 0x4, 0x5, 0x6] ∧ bits w.toNat 27 0 ≠ 0) ∨
       (bits w.toNat 31 28 = 0x2 ∧ bits w.toNat 27 16 ≠ 0) ∨
       (bits w.toNat 31 28 ∈ [0x8, 0x9, 0xA] ∧ bits w.toNat 27 8 ≠ 0)) := by
  unfold decode
  split
  -- no row of the opcode map has this OP: 4 bits leave the six reserved values
  case h_11 =>
    have hlt : bits w.toNat 31 28 < 16 := Nat.mod_lt _ (by decide)
    have hreserved : bits w.toNat 31 28 ∈ [0x7, 0xB, 0xC, 0xD, 0xE, 0xF] := by
      simp only [List.mem_cons, List.not_mem_nil, or_false, imp_false] at *
      omega
    exact ⟨fun _ => .inl hreserved, fun _ => ⟨.reservedOp, rfl⟩⟩
  -- format S, format X, and the rest of format N
  case h_3 hop => simp [decodeS_illegal_iff, hop]
  case h_8 hop | h_9 hop | h_10 hop => simp [decodeX_illegal_iff, hop]
  all_goals next hop => simp [decodeN_illegal_iff, hop]

end Sys2Proof

namespace Sys2Proof.Machine

/-- An accepted word that decodes runs its command (R60, R63). -/
theorem execWord_of_decode {w : Word} {i : Instr} (h : decode w = .ok i) (s : State) : execWord w s = exec i s := by
  simp only [execWord, h]

/-- Accepting an ILLEGAL word raises ILL in the block as it stands (R172). -/
theorem execWord_illegal {w : Word} (h : ∃ e, decode w = .error e) (s : State) :
    execWord w s = .next (s.commit (s.block.raiseError .ill)) := by
  obtain ⟨e, he⟩ := h
  rw [execWord_eq_commit, transact_illegal he]

end Sys2Proof.Machine
end

