-- ==== Sys2Proof/Proofs/FirstError.lean ====
section
/-! SUPPORT. What the end of a command tells of the error pair: the code of a first error, and no change after a success
(spec/60_exceptions.md R178, R179). -/

namespace Sys2Proof.Machine

/-- A success leaves the error pair as it was (R178, R179). -/
theorem EndsFrom.sameErrors_of_success {b : Block} {code : Option ErrorCode} {r : Block × Response}
    (h : EndsFrom b code r) (hr : r.2.err = false) : r.1.SameErrors b := by
  cases h with
  | success a data h => exact h
  | error a c hc h => simp at hr

/-- The first error leaves its own code (R178). -/
theorem EndsFrom.ecode_of_first_error {b : Block} {c : Option ErrorCode} {r : Block × Response} (h : EndsFrom b c r)
    (hr : r.2.err = true) (hb : b.err = false) : r.1.ecode = c.elim 0#4 ErrorCode.code := by
  cases h with
  | success a data h => simp at hr
  | error a c hc h => simp [hc, h.1, hb]

end Sys2Proof.Machine
end

