-- ==== Sys2Proof/Proofs/ExceptionsFamily.lean ====
section
/-! The statements of spec/60_exceptions.md on ILLEGAL words and on the first error. -/

open Sys2Proof Sys2Proof.Machine

/-- Settles O4: the decoder's branches are the four kinds, and raising ILL touches only ERR, ECODE and the response. -/
theorem illegalWordsRaiseIll : Obligations.IllegalWordsRaiseIll := by
  unfold Obligations.IllegalWordsRaiseIll
  exact fun w => ⟨decode_illegal_iff w, fun s hw => execWord_illegal hw s⟩

/-- Settles O25: every command but CLR ends by a success or by its one error, each in a block that has the old error
pair; CLR only succeeds. -/
theorem firstErrorIsKept : Obligations.FirstErrorIsKept := by
  unfold Obligations.FirstErrorIsKept
  refine ⟨fun i s t h => ?_, fun w s t h => ⟨fun i hw => ?_, fun hw => ?_⟩⟩
  · obtain rfl := exec_next i s t h
    by_cases hi : i = .clr
    · subst hi
      simp [commandRule_clr]
    · have hend := commandRule_endsFrom i s.block hi
      refine ⟨fun hok _ => hend.sameErrors_of_success hok,
        fun herr => ⟨hend.err_of_error herr, fun hb => (hend.keeps_error hb).2, fun hb => ?_⟩⟩
      have hcode := hend.ecode_of_first_error herr hb
      cases i <;> exact hcode
  · rwa [execWord_of_decode hw] at h
  · rw [execWord_illegal hw] at h
    obtain rfl := Host.Outcome.next.inj h
    exact ⟨rfl, rfl, rfl⟩

end

