-- ==== Sys2Proof/Proofs/ResetAndHazardsFamily.lean ====
section
/-! The statement of spec/70_reset_and_hazards.md on one reset edge, and the state after it field by field. -/

namespace Sys2Proof.Machine

@[simp] theorem CycleState.afterReset_machine (s : State) : (CycleState.afterReset s).machine = s.atReset := rfl
@[simp] theorem CycleState.afterReset_running (s : State) : (CycleState.afterReset s).running = none := rfl

/-- Every accumulator word is 0 after reset (R42). -/
@[simp] theorem Block.reset_w_getElem (k : Nat) (hk : k < 9) : Block.reset.w[k] = 0#32 :=
  Vector.getElem_replicate hk

@[simp] theorem Block.reset_digit : Block.reset.digit = 0#4 := rfl
@[simp] theorem Block.reset_fcnt : Block.reset.fcnt = 0#8 := rfl
@[simp] theorem Block.reset_icnt : Block.reset.icnt = 0#6 := rfl
@[simp] theorem Block.reset_err : Block.reset.err = false := rfl
@[simp] theorem Block.reset_ecode : Block.reset.ecode = 0#4 := rfl

end Sys2Proof.Machine

open Sys2Proof Sys2Proof.Machine

/-- Settles O42: whatever the state before it, a reset edge leads to `CycleState.afterReset`, whose block is
`Block.reset`. -/
theorem resetEdgeResets : Obligations.ResetEdgeResets := by
  unfold Obligations.ResetEdgeResets
  intro p c hp
  refine ⟨CycleState.afterReset c.machine, clockEdge_reset p c hp, ?_⟩
  simp

end

