-- ==== Sys2Proof/Proofs/EncodeDecode.lean ====
section
/-! SUPPORT. The words of a command with an operand, and Exec on the encoding of a command (spec/30_encoding.md R82 to
R86, R91, spec/20_memory.md R63). -/

namespace Sys2Proof

open Sys2Proof.Laws.OpField (opOf field_of_sum index_bound)

/-- A word decodes to a command of a row's OP exactly when the row selects it and reads that command from it (R85). -/
theorem decode_eq_ok_iff_of_row {r : OpcodeRow} (hr : r ∈ opcodeMap) {i : Instr} {w : Word}
    (hop : opOf i = opOf (r.command w)) :
    decode w = .ok i ↔ w &&& r.mask = r.matchWord ∧ r.command w = i := by
  obtain ⟨op, lo, hf⟩ := exists_hasFields_of_mem hr
  constructor
  · intro hdec
    have hbits : bits w.toNat 31 28 = op := by rw [← opOf_of_decode hdec, hop, hf.opOf_command]
    have hread := hf.decode_eq w hbits
    split at hread
    next hzero =>
      rw [hread] at hdec
      exact ⟨(hf.selects_iff w).mpr ⟨hbits, hzero⟩, Except.ok.inj hdec⟩
    next => rw [hread] at hdec; cases hdec
  · rintro ⟨hsel, rfl⟩
    exact (selects_iff_decode hr w).mp hsel

theorem decode_eq_ok_clr_iff (w : Word) : decode w = .ok .clr ↔ w = 0x10000000#32 :=
  decode_eq_ok_iff_of_fullMask (by simp [opcodeMap]) w

/-- A row with an operand reads it from a field of the words it selects (R85). -/
theorem decode_eq_ok_iff_of_operand {α : Type} {m mask : Word} {command : α → Instr} {field : Word → α}
    (hr : (⟨m, mask, fun w => command (field w)⟩ : OpcodeRow) ∈ opcodeMap) (hinj : command.Injective)
    (hop : ∀ x y, opOf (command x) = opOf (command y)) (w : Word) (x : α) :
    decode w = .ok (command x) ↔ w &&& mask = m ∧ x = field w := by
  rw [decode_eq_ok_iff_of_row hr (hop x (field w)), hinj.eq_iff, eq_comm (a := x)]

/-- The operand field of format X as a bit vector (R84). -/
theorem bits_index_eq (w : Word) : bits w.toNat 7 0 = (w.setWidth 8).toNat := by
  simp [bits]

/-- The operand of format S is the two's complement value of the low half of the word (R10, R83). -/
theorem sext_position_eq (w : Word) : sext 16 (bits w.toNat 15 0) = (w.setWidth 16).toInt := by
  have hlow : (w.setWidth 16).toNat = bits w.toNat 15 0 := by simp [bits]
  have hlt : bits w.toNat 15 0 < 2 ^ 16 := Nat.mod_lt _ (by decide)
  rw [BitVec.toInt_eq_toNat_cond, hlow]
  obtain ⟨hv, hs⟩ | ⟨hv, hs⟩ := sext16_eq _ hlt
  · rw [hs, if_pos (by omega)]
  · rw [hs, if_neg (by omega)]; rfl

theorem decode_eq_ok_setbit_iff (w : Word) (pos : Int) : decode w = .ok (.setbit pos) ↔
    (w &&& 0xFFFF0000#32 = 0x20000000#32 ∧ pos = (w.setWidth 16).toInt) := by
  rw [← sext_position_eq]
  refine decode_eq_ok_iff_of_operand (field := fun w => sext 16 (bits w.toNat 15 0)) ?_ (fun _ _ => Instr.setbit.inj)
    (fun _ _ => rfl) w pos
  simp [opcodeMap]

theorem decode_eq_ok_rdw_iff (w : Word) (k : Nat) : decode w = .ok (.rdw k) ↔
    (w &&& 0xFFFFFF00#32 = 0x80000000#32 ∧ k = (w.setWidth 8).toNat) := by
  rw [← bits_index_eq]
  refine decode_eq_ok_iff_of_operand (field := fun w => bits w.toNat 7 0) ?_ (fun _ _ => Instr.rdw.inj)
    (fun _ _ => rfl) w k
  simp [opcodeMap]

theorem decode_eq_ok_rdfd_iff (w : Word) (k : Nat) : decode w = .ok (.rdfd k) ↔
    (w &&& 0xFFFFFF00#32 = 0x90000000#32 ∧ k = (w.setWidth 8).toNat) := by
  rw [← bits_index_eq]
  refine decode_eq_ok_iff_of_operand (field := fun w => bits w.toNat 7 0) ?_ (fun _ _ => Instr.rdfd.inj)
    (fun _ _ => rfl) w k
  simp [opcodeMap]

theorem decode_eq_ok_rdid_iff (w : Word) (k : Nat) : decode w = .ok (.rdid k) ↔
    (w &&& 0xFFFFFF00#32 = 0xA0000000#32 ∧ k = (w.setWidth 8).toNat) := by
  rw [← bits_index_eq]
  refine decode_eq_ok_iff_of_operand (field := fun w => bits w.toNat 7 0) ?_ (fun _ _ => Instr.rdid.inj)
    (fun _ _ => rfl) w k
  simp [opcodeMap]

theorem index_lt {k : Nat} (h : indexEncodable k = true) : k < 2 ^ 8 := by
  simp only [indexEncodable, decide_eq_true_eq] at h
  omega

/-- Format X read back: below OP stands an index and nothing else (R84). -/
theorem decodeX_opcode_add {command : Nat → Instr} {op k : Nat} (hk : k < 2 ^ 8) :
    decodeX command (op * 2 ^ 28 + k) = .ok (command k) := by
  rw [decodeX_eq_ok]
  have hzero : bits (op * 2 ^ 28 + k) 27 8 = 0 := by simp only [bits]; omega
  have hfield : bits (op * 2 ^ 28 + k) 7 0 = k := by simp only [bits]; omega
  exact ⟨hzero, by rw [hfield]⟩

/-- Format S read back: below OP stands a position modulo 2^16 and nothing else (R83). -/
theorem decodeS_opcode_add {command : Int → Instr} {op : Nat} {pos : Int} (hlo : -32768 ≤ pos) (hhi : pos ≤ 32767) :
    decodeS command (op * 2 ^ 28 + (pos % 2 ^ 16).toNat) = .ok (command pos) := by
  rw [decodeS_eq_ok]
  have hlt : (pos % 2 ^ 16).toNat < 2 ^ 16 := by omega
  have hzero : bits (op * 2 ^ 28 + (pos % 2 ^ 16).toNat) 27 16 = 0 := by simp only [bits]; omega
  have hfield : bits (op * 2 ^ 28 + (pos % 2 ^ 16).toNat) 15 0 = (pos % 2 ^ 16).toNat := by simp only [bits]; omega
  have hsext : sext 16 (pos % 2 ^ 16).toNat = pos := by
    obtain ⟨hv, hs⟩ | ⟨hv, hs⟩ := sext16_eq _ hlt <;> omega
  exact ⟨hzero, by rw [hfield, hsext]⟩

/-- Decode of encode for format X: OP selects the format, which reads the index back (R81, R84). -/
theorem decode_encode_index {command : Nat → Instr} {op k : Nat} (hop : op < 16) (hk : k < 2 ^ 8)
    (hword : encode (command k) = BitVec.ofNat 32 (op * 2 ^ 28) ||| BitVec.ofNat 32 k)
    (hread : ∀ w, bits w.toNat 31 28 = op → decode w = decodeX command w.toNat) :
    decode (encode (command k)) = .ok (command k) := by
  have hnum : (encode (command k)).toNat = op * 2 ^ 28 + k := hword ▸ opcode_or_operand op k hop (by omega)
  rw [hread _ (hnum ▸ field_of_sum op k hop (by omega)), hnum]
  exact decodeX_opcode_add hk

/-- Decode of encode is the command: OP selects the format, which reads the operand back (R82 to R86, R91). -/
theorem decode_encode (i : Instr) (h : i.wellFormed = true) : decode (encode i) = .ok i := by
  cases i with
  | nop | clr | fmul10 | idiv10 | frun | irun => decide
  | setbit pos =>
    simp only [Instr.wellFormed, positionEncodable, decide_eq_true_eq] at h
    have hnum : (encode (.setbit pos)).toNat = 2 * 2 ^ 28 + (pos % 2 ^ 16).toNat :=
      opcode_or_operand 2 _ (by decide) (by omega)
    rw [decode, hnum, field_of_sum 2 _ (by decide) (by omega)]
    exact decodeS_opcode_add h.1 h.2
  | rdw k => exact decode_encode_index (op := 8) (by decide) (index_lt h) rfl fun w hw => by rw [decode, hw]; rfl
  | rdfd k => exact decode_encode_index (op := 9) (by decide) (index_lt h) rfl fun w hw => by rw [decode, hw]; rfl
  | rdid k => exact decode_encode_index (op := 10) (by decide) (index_lt h) rfl fun w hw => by rw [decode, hw]; rfl

/-- A word whose zero field is zero is its OP over its operand field (R81 to R84). -/
theorem opcode_or_field_eq {w : Word} {op lo : Nat} (hop : op < 16) (hlo : lo ≤ 28)
    (h : bits w.toNat 31 28 = op ∧ bits w.toNat 27 lo = 0) :
    BitVec.ofNat 32 (op * 2 ^ 28) ||| BitVec.ofNat 32 (w.toNat % 2 ^ lo) = w := by
  have hhigh : w.toNat / 2 ^ lo * 2 ^ lo = op * 2 ^ 28 := by
    rw [← toNat_and_highMask, (and_highMask_eq_iff w hop hlo).mpr h, BitVec.toNat_ofNat, Nat.mod_eq_of_lt (by omega)]
  have hlow : w.toNat % 2 ^ lo < 2 ^ 28 :=
    (Nat.mod_lt _ (by positivity)).trans_le (Nat.pow_le_pow_right (by decide) hlo)
  rw [← BitVec.toNat_inj, opcode_or_operand op _ hop hlow, ← hhigh, Nat.div_add_mod']

theorem opcode_eq_of_no_operand {w : Word} {op : Nat} (hop : op < 16)
    (h : bits w.toNat 31 28 = op ∧ bits w.toNat 27 0 = 0) : BitVec.ofNat 32 (op * 2 ^ 28) = w := by
  simpa [Nat.mod_one] using opcode_or_field_eq hop (by decide) h

/-- The index of format X has an encoding, and it is the word's low field (R84). -/
theorem index_of_bits (w : Word) :
    indexEncodable (bits w.toNat 7 0) = true ∧ bits w.toNat 7 0 = w.toNat % 2 ^ 8 := by
  rw [indexEncodable, decide_eq_true_eq]
  simp only [bits]
  omega

/-- The position of format S has an encoding, and modulo 2^16 it is the word's low field (R83). -/
theorem position_of_bits (w : Word) :
    positionEncodable (sext 16 (bits w.toNat 15 0)) = true ∧
      (sext 16 (bits w.toNat 15 0) % 2 ^ 16).toNat = w.toNat % 2 ^ 16 := by
  have hlow : bits w.toNat 15 0 = w.toNat % 2 ^ 16 := by simp only [bits]; omega
  rw [hlow, positionEncodable, decide_eq_true_eq]
  obtain ⟨hv, hs⟩ | ⟨hv, hs⟩ := sext16_eq (w.toNat % 2 ^ 16) (by omega) <;> rw [hs] <;> omega

/-- Encode of decode is the word: the zero field checked and the operand read, no bit is left (R86, R88). -/
theorem encode_of_decode {w : Word} {i : Instr} (h : decode w = .ok i) : i.wellFormed = true ∧ encode i = w := by
  obtain ⟨hindex, hk⟩ := index_of_bits w
  obtain ⟨hposition, hp⟩ := position_of_bits w
  rcases decode_eq_ok w i h with ⟨hop, hzero, rfl⟩ | ⟨hop, hzero, rfl⟩ | ⟨hop, hzero, rfl⟩ | ⟨hop, hzero, rfl⟩ |
    ⟨hop, hzero, rfl⟩ | ⟨hop, hzero, rfl⟩ | ⟨hop, hzero, rfl⟩ | ⟨hop, hzero, rfl⟩ | ⟨hop, hzero, rfl⟩ | ⟨hop, hzero, rfl⟩
  · exact ⟨rfl, opcode_eq_of_no_operand (op := 0x0) (by decide) ⟨hop, hzero⟩⟩
  · exact ⟨rfl, opcode_eq_of_no_operand (op := 0x1) (by decide) ⟨hop, hzero⟩⟩
  · refine ⟨hposition, ?_⟩
    rw [encode, hp]
    exact opcode_or_field_eq (op := 0x2) (lo := 16) (by decide) (by decide) ⟨hop, hzero⟩
  · exact ⟨rfl, opcode_eq_of_no_operand (op := 0x3) (by decide) ⟨hop, hzero⟩⟩
  · exact ⟨rfl, opcode_eq_of_no_operand (op := 0x4) (by decide) ⟨hop, hzero⟩⟩
  · exact ⟨rfl, opcode_eq_of_no_operand (op := 0x5) (by decide) ⟨hop, hzero⟩⟩
  · exact ⟨rfl, opcode_eq_of_no_operand (op := 0x6) (by decide) ⟨hop, hzero⟩⟩
  all_goals refine ⟨hindex, ?_⟩; rw [encode, hk]
  · exact opcode_or_field_eq (op := 0x8) (lo := 8) (by decide) (by decide) ⟨hop, hzero⟩
  · exact opcode_or_field_eq (op := 0x9) (lo := 8) (by decide) (by decide) ⟨hop, hzero⟩
  · exact opcode_or_field_eq (op := 0xA) (lo := 8) (by decide) (by decide) ⟨hop, hzero⟩

end Sys2Proof

namespace Sys2Proof.Machine

/-- Exec on the encoding of a command is the command's rule (R63, R91). -/
theorem transact_encode {i : Instr} (h : i.wellFormed = true) (b : Block) : transact b (encode i) = commandRule i b := by
  simp [transact, decode_encode i h]

/-- Exec on a word that decodes is the command's rule (R63). -/
theorem transact_of_decode {w : Word} {i : Instr} (h : decode w = .ok i) (b : Block) :
    transact b w = commandRule i b := by
  simp [transact, h]

end Sys2Proof.Machine

open Sys2Proof Sys2Proof.Machine

/-- Settles O1: OP selects the format, and each format reads back the operand the encoder wrote. -/
theorem decodeOfEncode : Obligations.DecodeOfEncode := by
  unfold Obligations.DecodeOfEncode
  exact decode_encode

/-- Settles O2: a legal word is its OP over its operand field, which is what the encoder writes. -/
theorem encodeOfDecode : Obligations.EncodeOfDecode := by
  unfold Obligations.EncodeOfDecode
  exact fun _ _ => encode_of_decode

/-- Settles O5: the words of the worked examples, each read by its format. -/
theorem workedWordsDecode : Obligations.WorkedWordsDecode := by
  unfold Obligations.WorkedWordsDecode
  decide

/-- Settles O38: exec commits the command's rule, and that rule is Exec of the encoding. -/
theorem execIsExecOnBlock : Obligations.ExecIsExecOnBlock := by
  unfold Obligations.ExecIsExecOnBlock
  intro i s h
  rw [exec_eq_commit, transact_encode h]
  rfl

end

