-- ==== Sys2Proof/Proofs/Passes.lean ====
section
/-! SUPPORT. What one successful pass does to the block, field by field, and the counts of a pass from a legal count
(spec/42_extractor.md R130, R131, R134, R135). -/

namespace Sys2Proof.Machine

/-- What a successful fraction pass does (R130, R134). -/
structure FracStep (a b : Block) : Prop where
  room : a.fcnt ≠ 149#8
  fcnt_eq : b.fcnt = a.fcnt + 1#8
  fdig_eq : b.fdig = a.fdig ++ [b.digit]
  digit_le : b.digit.toNat ≤ 9
  law : 10 * a.fracValue = b.digit.toNat * 2 ^ 160 + b.fracValue
  high_words : ∀ (k : Nat) (hk : k < 9), 5 ≤ k → b.w[k] = a.w[k]
  frame : b = { a with w := b.w, digit := b.digit, fdig := b.fdig, fcnt := b.fcnt }

/-- What a successful integer pass does (R131, R135). -/
structure IntStep (a b : Block) : Prop where
  room : a.icnt ≠ 39#6
  icnt_eq : b.icnt = a.icnt + 1#6
  idig_eq : b.idig = a.idig ++ [b.digit]
  digit_le : b.digit.toNat ≤ 9
  law : a.intValue = 10 * b.intValue + b.digit.toNat
  low_words : ∀ (k : Nat) (hk : k < 9), k ≤ 4 → b.w[k] = a.w[k]
  frame : b = { a with w := b.w, digit := b.digit, idig := b.idig, icnt := b.icnt }

/-- A sweep's last carry or remainder, at most 9, is the digit it is stored as. -/
theorem digit_of_carry {n : Nat} (h : n ≤ 9) : (BitVec.ofNat 4 n).toNat = n := by
  rw [BitVec.toNat_ofNat, Nat.mod_eq_of_lt (by omega)]

theorem fracPass_step {a b : Block} (h : fracPass a = .ok b) : FracStep a b := by
  obtain ⟨hroom, hfcnt, hlaw, hcarry, hdigit, hfdig, hframe⟩ := fracPass_ok a b h
  have hnum : b.digit.toNat = (fracSweep a.w).carry := by rw [hdigit, digit_of_carry hcarry]
  have hw : b.w = (fracSweep a.w).w := congrArg Block.w hframe
  refine ⟨hroom, hfcnt, by rw [hfdig, hdigit], by omega, by rw [hnum, hlaw], fun k hk h5 => ?_, by rw [hw]; exact hframe⟩
  simp only [hw]
  exact (fracSweep_law a).2.2 k hk h5

theorem intPass_step {a b : Block} (h : intPass a = .ok b) : IntStep a b := by
  obtain ⟨hroom, hicnt, hlaw, hcarry, hdigit, hidig, hframe⟩ := intPass_ok a b h
  have hnum : b.digit.toNat = (intSweep a.w).carry := by rw [hdigit, digit_of_carry hcarry]
  have hw : b.w = (intSweep a.w).w := congrArg Block.w hframe
  refine ⟨hroom, hicnt, by rw [hidig, hdigit], by omega, by rw [hnum, hlaw], fun k hk h5 => ?_, by rw [hw]; exact hframe⟩
  simp only [hw]
  exact (intSweep_law a).2.2 k hk h5

section
variable {a b : Block}

theorem FracStep.icnt_eq (h : FracStep a b) : b.icnt = a.icnt := by rw [h.frame]
theorem FracStep.idig_eq (h : FracStep a b) : b.idig = a.idig := by rw [h.frame]
theorem FracStep.err_eq (h : FracStep a b) : b.err = a.err := by rw [h.frame]
theorem FracStep.ecode_eq (h : FracStep a b) : b.ecode = a.ecode := by rw [h.frame]

theorem IntStep.fcnt_eq (h : IntStep a b) : b.fcnt = a.fcnt := by rw [h.frame]
theorem IntStep.fdig_eq (h : IntStep a b) : b.fdig = a.fdig := by rw [h.frame]
theorem IntStep.err_eq (h : IntStep a b) : b.err = a.err := by rw [h.frame]
theorem IntStep.ecode_eq (h : IntStep a b) : b.ecode = a.ecode := by rw [h.frame]

/-- From a legal count a fraction pass counts one digit and stays legal (R27, R130). -/
theorem FracStep.count (h : FracStep a b) (hle : a.fcnt.toNat ≤ 149) :
    b.fcnt.toNat = a.fcnt.toNat + 1 ∧ b.fcnt.toNat ≤ 149 := by
  have hne : a.fcnt.toNat ≠ 149 := fun he => h.room (BitVec.eq_of_toNat_eq he)
  have hadd : b.fcnt.toNat = a.fcnt.toNat + 1 := by
    rw [h.fcnt_eq, BitVec.toNat_add, BitVec.toNat_ofNat]
    omega
  omega

/-- From a legal count an integer pass counts one digit and stays legal (R28, R131). -/
theorem IntStep.count (h : IntStep a b) (hle : a.icnt.toNat ≤ 39) :
    b.icnt.toNat = a.icnt.toNat + 1 ∧ b.icnt.toNat ≤ 39 := by
  have hne : a.icnt.toNat ≠ 39 := fun he => h.room (BitVec.eq_of_toNat_eq he)
  have hadd : b.icnt.toNat = a.icnt.toNat + 1 := by
    rw [h.icnt_eq, BitVec.toNat_add, BitVec.toNat_ofNat]
    omega
  omega

end

end Sys2Proof.Machine
end

