-- ==== Sys2Proof/Proofs/ClockEdgeCases.lean ====
section
/-! SUPPORT. The clock edges with rst_n = 1, before and after the first reset (spec/20_memory.md R60 to R62, R69,
spec/70_reset_and_hazards.md R204). -/

namespace Sys2Proof.Machine

/-- Everything a clock edge with rst_n = 1 can do to a machine that has been reset (R60 to R62, R69, R191). -/
theorem clockEdge_cases (p : Pins) (c : CycleState) (hrst : p.rstN = true) (hup : c.machine.up = true) :
    (∃ r, c.machine.rsp = some r ∧ clockEdge p c = .next { c with
      machine := if p.rspReady then c.machine.takeResponse else c.machine, offer := nextOffer p c.offer }) ∨
    (c.machine.rsp = none ∧ ∃ r, c.running = some r ∧
      clockEdge p c = advanceCommand r.word r.left (nextOffer p c.offer) c.machine) ∨
    (c.machine.rsp = none ∧ c.running = none ∧ p.cmdValid = true ∧
      clockEdge p c = acceptCommand p c.offer c.machine) ∨
    (c.machine.rsp = none ∧ c.running = none ∧ p.cmdValid = false ∧
      clockEdge p c = .next { c with offer := nextOffer p c.offer }) := by
  obtain hrsp | ⟨r, hrsp⟩ := c.machine.rsp.eq_none_or_eq_some
  · obtain hrun | ⟨r, hrun⟩ := c.running.eq_none_or_eq_some
    · cases hvalid : p.cmdValid with
      | true => exact .inr (.inr (.inl ⟨hrsp, hrun, rfl, clockEdge_accepting p c hrst hup hrsp hrun hvalid⟩))
      | false => exact .inr (.inr (.inr ⟨hrsp, hrun, rfl, clockEdge_idle p c hrst hup hrsp hrun hvalid⟩))
    · exact .inr (.inl ⟨hrsp, r, hrun, clockEdge_running p c r hrst hup hrsp hrun⟩)
  · exact .inl ⟨r, hrsp, clockEdge_waiting p c r hrst hup hrsp⟩

/-- Before the first reset an edge with rst_n = 1 refuses a command and changes nothing otherwise (R204). -/
theorem clockEdge_before_reset (p : Pins) (c : CycleState) (hrst : p.rstN = true) (hup : c.machine.up = false) :
    clockEdge p c = if p.cmdValid then .refused .beforeFirstReset else .next c := by
  simp [clockEdge, hrst, hup]

end Sys2Proof.Machine
end

