-- ==== Sys2Proof/Proofs/Invariant.lean ====
section
/-! SUPPORT. The invariant of the architectural state is kept by every operation on it (spec/10_state.md R25, R31,
R43). -/

namespace Sys2Proof.Machine

/-- The low bits of F are those of W[0] (R23). -/
theorem Block.fracValue_low (b : Block) : b.fracValue % 2 ^ 11 = b.w[0].toNat % 2 ^ 11 := by
  simp only [Block.fracValue]
  omega

theorem Block.reset_inv : Block.reset.Inv := by constructor <;> decide

theorem ErrorCode.code_le (c : ErrorCode) : c.code.toNat ≤ 5 := by cases c <;> decide

theorem ErrorCode.code_ne_zero (c : ErrorCode) : c.code ≠ 0#4 := by cases c <;> decide

theorem Block.Inv.recordError {b : Block} (h : b.Inv) (c : ErrorCode) : (b.recordError c).Inv := by
  refine { h with ecode_le := ?_, ecode_zero_iff := ?_ }
  · rw [Block.recordError_ecode]
    split
    · exact h.ecode_le
    · exact c.code_le
  · rw [Block.recordError_ecode, Block.recordError_err]
    split
    next herr => simp [h.ecode_zero_iff, herr]
    next => simp [c.code_ne_zero]

/-- A legal position sets none of the low eleven bits: it addresses bit 11 or above (R25, R51). -/
theorem Block.Inv.setAccBit {b : Block} (h : b.Inv) {j : Fin 288} (hj : 11 ≤ j.val) : (b.setAccBit j).Inv := by
  refine { h with low_bits := ?_ }
  have hlow := h.low_bits
  rw [Block.setAccBit_w]
  by_cases h0 : j.val / 32 = 0
  · have hbit : 2 ^ (j.val % 32) % 2 ^ 32 % 2 ^ 11 = 0 := by
      have hdvd : 2 ^ 11 ∣ 2 ^ (j.val % 32) := Nat.pow_dvd_pow 2 (by omega)
      omega
    simp only [h0, Vector.getElem_set_self, BitVec.toNat_or, BitVec.toNat_ofNat]
    rw [Nat.or_mod_two_pow, hlow, hbit, Nat.or_self]
  · rw [Vector.getElem_set_ne _ _ h0]
    exact hlow

theorem FracStep.inv {a b : Block} (h : FracStep a b) (ha : a.Inv) : b.Inv where
  fcnt_le := (h.count ha.fcnt_le).2
  icnt_le := h.icnt_eq ▸ ha.icnt_le
  ecode_le := h.ecode_eq ▸ ha.ecode_le
  ecode_zero_iff := by rw [h.ecode_eq, h.err_eq, ha.ecode_zero_iff]
  low_bits := by
    have hlaw := h.law
    have hlow := ha.low_bits
    rw [← Block.fracValue_low] at hlow ⊢
    omega
  digit_le := h.digit_le
  fdig_le := by
    rw [h.fdig_eq]
    simpa [or_imp, forall_and] using ⟨ha.fdig_le, h.digit_le⟩
  idig_le := h.idig_eq ▸ ha.idig_le
  fdig_length := by
    rw [h.fdig_eq, (h.count ha.fcnt_le).1, List.length_append, ha.fdig_length]
    rfl
  idig_length := by rw [h.idig_eq, h.icnt_eq, ha.idig_length]

theorem IntStep.inv {a b : Block} (h : IntStep a b) (ha : a.Inv) : b.Inv where
  fcnt_le := h.fcnt_eq ▸ ha.fcnt_le
  icnt_le := (h.count ha.icnt_le).2
  ecode_le := h.ecode_eq ▸ ha.ecode_le
  ecode_zero_iff := by rw [h.ecode_eq, h.err_eq, ha.ecode_zero_iff]
  low_bits := by
    rw [h.low_words 0 (by decide) (by decide)]
    exact ha.low_bits
  digit_le := h.digit_le
  fdig_le := h.fdig_eq ▸ ha.fdig_le
  idig_le := by
    rw [h.idig_eq]
    simpa [or_imp, forall_and] using ⟨ha.idig_le, h.digit_le⟩
  fdig_length := by rw [h.fdig_eq, h.fcnt_eq, ha.fdig_length]
  idig_length := by
    rw [h.idig_eq, (h.count ha.icnt_le).1, List.length_append, ha.idig_length]
    rfl

/-- A run keeps the invariant when its passes do, and its end keeps what the passes leave (R132, R133, R177). -/
theorem finish_run_inv {pass : Block → Except ErrorCode Block} (hpass : ∀ a b, pass a = .ok b → a.Inv → b.Inv)
    (done : Block → Bool) (fuel : Nat) {b : Block} (h : b.Inv) : (finish (repeatPass pass done fuel b)).1.Inv := by
  have hrun : (repeatPass pass done fuel b).1.Inv :=
    repeatPass_induct pass done (fun a z => a.Inv → z.Inv) (fun _ => id)
      (fun a m z hm hz ha => hz (hpass a m hm ha)) fuel b h
  unfold finish
  split
  · exact hrun
  · exact hrun.recordError _

/-- Every command's rule keeps the invariant. -/
theorem commandRule_inv (i : Instr) {b : Block} (h : b.Inv) : (commandRule i b).1.Inv := by
  have hfrac : ∀ a z, fracPass a = .ok z → a.Inv → z.Inv := fun _ _ hp => (fracPass_step hp).inv
  have hint : ∀ a z, intPass a = .ok z → a.Inv → z.Inv := fun _ _ hp => (intPass_step hp).inv
  cases i with
  | nop => exact h
  | clr => exact Block.reset_inv
  | setbit pos =>
    simp only [commandRule, setbitCommand]
    split
    next => exact h.recordError _
    next j hj =>
      have hpos := (accBit_eq_some pos j).mp hj
      exact h.setAccBit (by omega)
  | fmul10 =>
    rw [commandRule, fmul10Command_eq_run]
    exact finish_run_inv hfrac _ _ h
  | idiv10 =>
    rw [commandRule, idiv10Command_eq_run]
    exact finish_run_inv hint _ _ h
  | frun => exact finish_run_inv hfrac Block.fz 160 h
  | irun => exact finish_run_inv hint Block.iz 39 h
  | rdw k | rdfd k | rdid k =>
    simp only [commandRule, rdwCommand, rdfdCommand, rdidCommand]
    split
    · exact h.recordError _
    · exact h

/-- Exec keeps the invariant on every word (R43, R63). -/
theorem transact_inv (w : Word) {b : Block} (h : b.Inv) : (transact b w).1.Inv := by
  unfold transact
  split
  · exact commandRule_inv _ h
  · exact h.recordError _

/-- A move of the host keeps the invariant. -/
theorem hostMove_inv {m : HostMove} {rest : List HostMove} {s t : State} (hs : s.Inv)
    (h : hostMove m rest s = .next t) : t.Inv := by
  cases hup : s.up with
  | false =>
    rw [hostMove_before_reset m rest s hup] at h
    split at h
    · obtain rfl := Host.Outcome.next.inj h
      exact Block.reset_inv
    · cases h
  | true =>
    obtain ⟨-, he⟩ | ⟨-, he⟩ | ⟨-, he⟩ | ⟨-, w, n, he⟩ := hostMove_cases m rest s hup
    all_goals
      rw [he] at h
      obtain rfl := Host.Outcome.next.inj h
    · exact Block.reset_inv
    · simpa [State.Inv] using hs
    · exact hs
    · exact transact_inv w hs

/-- A command under way keeps the cycle-level invariant: a response appears only when the command ends (R61, R62). -/
theorem advanceCommand_inv {w : Word} {left : Nat} {o : Offer} {s : State} {c : CycleState} (hs : s.Inv)
    (hrsp : s.rsp = none) (h : advanceCommand w left o s = .next c) : c.Inv := by
  obtain ⟨-, he⟩ | ⟨-, he⟩ := advanceCommand_cases w left o s <;> rw [he] at h <;> obtain rfl := Host.Outcome.next.inj h
  · exact ⟨transact_inv w hs, .inl rfl⟩
  · exact ⟨hs, .inr hrsp⟩

/-- A clock edge keeps the cycle-level invariant. -/
theorem clockEdge_inv {p : Pins} {c c' : CycleState} (hc : c.Inv) (h : clockEdge p c = .next c') : c'.Inv := by
  obtain ⟨hinv, hone⟩ := hc
  cases hrst : p.rstN with
  | false =>
    rw [clockEdge_reset p c hrst] at h
    obtain rfl := Host.Outcome.next.inj h
    exact ⟨Block.reset_inv, .inl rfl⟩
  | true =>
    cases hup : c.machine.up with
    | false =>
      rw [clockEdge_before_reset p c hrst hup] at h
      split at h <;> cases h
      exact ⟨hinv, hone⟩
    | true =>
      obtain ⟨r, hrsp, he⟩ | ⟨hrsp, r, -, he⟩ | ⟨hrsp, hidle, -, he⟩ | ⟨hrsp, hidle, -, he⟩ :=
        clockEdge_cases p c hrst hup
      all_goals rw [he] at h
      · obtain rfl := Host.Outcome.next.inj h
        have hidle : c.running = none := hone.resolve_right (by simp [hrsp])
        refine ⟨?_, .inl hidle⟩
        dsimp only
        split
        · simpa [State.Inv] using hinv
        · exact hinv
      · exact advanceCommand_inv hinv hrsp h
      · obtain ⟨-, ha⟩ | ⟨-, ha⟩ := acceptCommand_cases p c.offer c.machine <;> rw [ha] at h
        · exact advanceCommand_inv hinv hrsp h
        · exact advanceCommand_inv (s := { c.machine with draws := c.machine.draws + 1 }) hinv hrsp h
      · obtain rfl := Host.Outcome.next.inj h
        exact ⟨hinv, .inr hrsp⟩

end Sys2Proof.Machine

open Sys2Proof Sys2Proof.Machine

/-- Settles O30: a step without a move changes nothing, and a move resets, takes, waits, or runs a word, whose Exec keeps
the invariant. -/
theorem stepKeepsInvariant : Obligations.StepKeepsInvariant := by
  unfold Obligations.StepKeepsInvariant
  intro s t hs h
  unfold step at h
  split at h
  · obtain rfl := Host.Outcome.next.inj h
    exact hs
  · exact hostMove_inv hs h

/-- Settles O31: the reset block has empty stores, zero counts and no error. -/
theorem resetMeetsInvariant : Obligations.ResetMeetsInvariant := by
  unfold Obligations.ResetMeetsInvariant
  exact Block.reset_inv

/-- Settles O32: an edge resets, waits, idles, or takes a command one edge further, and a response appears only at a
command's end. -/
theorem clockEdgeKeepsInvariant : Obligations.ClockEdgeKeepsInvariant := by
  unfold Obligations.ClockEdgeKeepsInvariant
  exact fun p c c' => clockEdge_inv

end

