-- ==== Sys2Proof/Proofs/ScalerCommands.lean ====
section
/-! SUPPORT. SETBIT as an OR on the accumulator value, and what CLR and a sequence of SETBITs leave
(spec/41_scaler.md R121 to R123). -/

namespace Sys2Proof.Machine

/-- Setting absolute bit j is an OR with 2^j on V (R122). -/
theorem Block.setAccBit_accValue (b : Block) (j : Fin 288) : (b.setAccBit j).accValue = b.accValue ||| 2 ^ j.val := by
  have hj := j.isLt
  apply Nat.eq_of_testBit_eq
  intro i
  rw [Nat.testBit_or, Nat.testBit_two_pow]
  by_cases hi : i < 288
  · have hnew := (b.setAccBit j).accValue_testBit ⟨i, hi⟩
    have hold := b.accValue_testBit ⟨i, hi⟩
    simp only [Block.setAccBit_w] at hnew hold
    rw [hnew, hold]
    by_cases hw : j.val / 32 = i / 32
    · have hbit : j.val % 32 = i % 32 ↔ j.val = i := by omega
      have hone : 2 ^ (j.val % 32) % 2 ^ 32 = 2 ^ (j.val % 32) :=
        Nat.mod_eq_of_lt (Nat.pow_lt_pow_right (by decide) (by omega))
      simp only [hw, Vector.getElem_set_self, BitVec.toNat_or, BitVec.toNat_ofNat, hone, Nat.testBit_or,
        Nat.testBit_two_pow, hbit]
    · have hne : j.val ≠ i := fun h => hw (by rw [h])
      rw [Vector.getElem_set_ne _ _ hw]
      simp [hne]
  · have hne : j.val ≠ i := by omega
    have hpow : 2 ^ 288 ≤ 2 ^ i := pow_le_pow_right₀ one_le_two (not_lt.mp hi)
    rw [Nat.testBit_lt_two_pow ((b.setAccBit j).accValue_lt.trans_le hpow),
      Nat.testBit_lt_two_pow (b.accValue_lt.trans_le hpow)]
    simp [hne]

theorem Block.setAccBit_testBit_self (b : Block) (j : Fin 288) : (b.setAccBit j).accValue.testBit j.val = true := by
  simp [Block.setAccBit_accValue, Nat.testBit_or]

/-- A fraction bit clears FZ (R34, R122). -/
theorem Block.setAccBit_fz (b : Block) {j : Fin 288} (hj : j.val < 160) : (b.setAccBit j).fz = false := by
  have hbit := b.setAccBit_testBit_self j
  rw [Bool.eq_false_iff, ne_eq, Block.fz_eq_true, Block.fracValue_eq_mod]
  intro hzero
  have hmod := Nat.testBit_mod_two_pow (b.setAccBit j).accValue 160 j.val
  rw [hzero] at hmod
  simp [hbit, hj] at hmod

/-- An integer bit clears IZ (R34, R122). -/
theorem Block.setAccBit_iz (b : Block) {j : Fin 288} (hj : 160 ≤ j.val) : (b.setAccBit j).iz = false := by
  have hbit := b.setAccBit_testBit_self j
  rw [Bool.eq_false_iff, ne_eq, Block.iz_eq_true, Block.intValue_eq_div]
  intro hzero
  have hdiv : ((b.setAccBit j).accValue / 2 ^ 160).testBit (j.val - 160)
      = (b.setAccBit j).accValue.testBit (j.val - 160 + 160) := Nat.testBit_div_two_pow _ _
  rw [hzero, Nat.sub_add_cancel hj, hbit] at hdiv
  simp at hdiv

/-- A legal position addresses absolute bit position + 33 (R51, R122). -/
theorem accBit_of_legal {pos : Int} (h : -22 ≤ pos ∧ pos ≤ 254) :
    ∃ j : Fin 288, accBit pos = some j ∧ j.val = (pos + 33).toNat := by
  refine ⟨⟨(pos + 33).toNat, by omega⟩, (accBit_eq_some pos _).mpr ⟨h, ?_⟩, rfl⟩
  dsimp only
  omega

/-- SETBIT at a legal position sets its bit and responds STATUS (R122). -/
theorem commandRule_setbit {pos : Int} (h : -22 ≤ pos ∧ pos ≤ 254) (b : Block) :
    ∃ j : Fin 288, j.val = (pos + 33).toNat ∧
      commandRule (.setbit pos) b = (b.setAccBit j).respond (b.setAccBit j).status := by
  obtain ⟨j, hj, hval⟩ := accBit_of_legal h
  exact ⟨j, hval, by simp [commandRule, setbitCommand, hj]⟩

/-- SETBIT outside the legal positions raises POS (R122, R173). -/
theorem commandRule_setbit_illegal {pos : Int} (h : pos < -22 ∨ 254 < pos) (b : Block) :
    commandRule (.setbit pos) b = b.raiseError .pos := by
  simp [commandRule, setbitCommand, (accBit_eq_none pos).mpr h]

theorem wellFormed_setbit {pos : Int} (h : -22 ≤ pos ∧ pos ≤ 254) : Instr.wellFormed (.setbit pos) = true := by
  rw [Instr.wellFormed, positionEncodable, decide_eq_true_eq]
  omega

/-- What a sequence of SETBITs at legal positions leaves: the bits set before and theirs, every other field of the block
as it was, and no error (R122, R123). -/
theorem transactAll_setbits (ps : List Int) (hps : ∀ p ∈ ps, -22 ≤ p ∧ p ≤ 254) (b : Block) :
    let r := transactAll b (sendWords (ps.map .setbit))
    (∀ i, r.1.accValue.testBit i = true ↔ b.accValue.testBit i = true ∨ ∃ p ∈ ps, (p + 33).toNat = i) ∧
    r.1 = { b with w := r.1.w } ∧ ∀ x ∈ r.2, x.err = false := by
  induction ps generalizing b with
  | nil => simp [sendWords, transactAll]
  | cons p ps ih =>
    obtain ⟨hp, hps⟩ := List.forall_mem_cons.mp hps
    obtain ⟨j, hj, hrule⟩ := commandRule_setbit hp b
    obtain ⟨hbits, hframe, hok⟩ := ih hps (b.setAccBit j)
    have hfirst : transact b (encode (.setbit p)) = (b.setAccBit j).respond (b.setAccBit j).status := by
      rw [transact_encode (wellFormed_setbit hp), hrule]
    simp only [sendWords, List.map_cons, transactAll, hfirst, Block.respond_fst, Block.respond_snd] at *
    refine ⟨fun i => ?_, hframe, List.forall_mem_cons.mpr ⟨rfl, hok⟩⟩
    rw [hbits, Block.setAccBit_accValue, Nat.testBit_or, Nat.testBit_two_pow]
    simp [hj, or_assoc]

/-- A number whose bits are those of the legal positions of a list is the sum of their powers of two. -/
theorem eq_sum_of_testBit {v : Nat} {ps : List Int} (hps : ∀ p ∈ ps, -22 ≤ p ∧ p ≤ 254)
    (h : ∀ i, v.testBit i = true ↔ ∃ p ∈ ps, (p + 33).toNat = i) : v = ∑ q ∈ ps.toFinset, 2 ^ (q + 33).toNat := by
  have hset : v.bitIndices.toFinset = ps.toFinset.image fun q => (q + 33).toNat := by
    ext i
    simp [Nat.mem_bitIndices, h]
  have hinj : Set.InjOn (fun q : Int => (q + 33).toNat) ps.toFinset := by
    intro p hp q hq hpq
    have hp := hps p (by simpa using hp)
    have hq := hps q (by simpa using hq)
    dsimp only at hpq
    omega
  rw [← Finset.sum_toFinset_bitIndices_two_pow v, hset, Finset.sum_image hinj]

theorem Block.reset_accValue : Block.reset.accValue = 0 := by decide

/-- CLR and then SETBITs at legal positions, from any block: the sum of the distinct bits, every other field at its reset
value, and no error (R121, R123). -/
theorem transactAll_clr_setbits (start : Block) (ps : List Int) (hps : ∀ p ∈ ps, -22 ≤ p ∧ p ≤ 254) :
    let r := transactAll start (sendWords (.clr :: ps.map .setbit))
    r.1.accValue = ∑ q ∈ ps.toFinset, 2 ^ (q + 33).toNat ∧ r.1 = { Block.reset with w := r.1.w } ∧
      ∀ x ∈ r.2, x.err = false := by
  obtain ⟨hbits, hframe, hok⟩ := transactAll_setbits ps hps Block.reset
  have hfirst : transact start (encode .clr) = Block.reset.respond Block.reset.status :=
    transact_encode rfl start
  simp only [sendWords, List.map_cons, transactAll, hfirst, Block.respond_fst, Block.respond_snd] at *
  refine ⟨eq_sum_of_testBit hps fun i => ?_, hframe, List.forall_mem_cons.mpr ⟨rfl, hok⟩⟩
  rw [hbits, Block.reset_accValue]
  simp

/-- RDW on a word index reads that word (R150). -/
theorem commandRule_rdw {k : Nat} (hk : k < 9) (b : Block) : commandRule (.rdw k) b = b.respond b.w[k] := by
  have hindex : wordIndex k = some ⟨k, hk⟩ := (wordIndex_eq_some k _).mpr rfl
  simp [commandRule, rdwCommand, hindex]

end Sys2Proof.Machine

open Sys2Proof Sys2Proof.Machine

/-- Settles O9: CLR's row masks no bit away, its rule gives the reset block, and RDW reads that block's words. -/
theorem clrClearsTheBlock : Obligations.ClrClearsTheBlock := by
  unfold Obligations.ClrClearsTheBlock
  refine ⟨decode_eq_ok_clr_iff, fun s => ⟨_, exec_eq_commit .clr s, ?_⟩⟩
  rw [commandRule_clr, succeeds_iff]
  refine ⟨by rw [commandRule_clr, Block.reset_status]; rfl, Block.reset_accValue, rfl, rfl, rfl, rfl, rfl, fun k hk => ?_⟩
  rw [succeeds_iff, commandRule_rdw (by omega)]
  simp [Block.respond]

/-- Settles O10: a legal position sets one bit of V, which the flags see, and an illegal one raises POS. -/
theorem setbitSetsOneBit : Obligations.SetbitSetsOneBit := by
  unfold Obligations.SetbitSetsOneBit
  refine ⟨decode_eq_ok_setbit_iff, fun s pos => ⟨fun h => ?_, fun h => ?_⟩⟩
  · obtain ⟨j, hj, hrule⟩ := commandRule_setbit h s.block
    refine ⟨(s.block.setAccBit j).w, hj ▸ s.block.setAccBit_accValue j, fun hfrac => s.block.setAccBit_fz (by omega),
      fun hint => s.block.setAccBit_iz (by omega), ?_⟩
    rw [succeeds_iff, hrule]
    rfl
  · rw [Fails, failsFrom_iff, commandRule_setbit_illegal h]
    rfl

/-- Settles O11: after CLR a bit of V is set exactly when a position addresses it. -/
theorem scalerLaw : Obligations.ScalerLaw := by
  unfold Obligations.ScalerLaw
  intro start ps hps
  obtain ⟨hsum, -, hok⟩ := transactAll_clr_setbits start ps hps
  exact ⟨hsum, hok⟩

end

