-- ==== Sys2Proof/Proofs/ReadCommands.lean ====
section
/-! SUPPORT. The data of the reading commands (spec/43_readout.md R150 to R152). -/

namespace Sys2Proof.Machine

/-- Word k is bits 32k+31 down to 32k of V (R22, R150). -/
theorem Block.word_eq_ofNat (b : Block) {k : Nat} (hk : k < 9) : b.w[k] = BitVec.ofNat 32 (b.accValue / 2 ^ (32 * k)) := by
  apply BitVec.eq_of_toNat_eq
  rw [BitVec.toNat_ofNat]
  exact b.word_eq_accValue_digit ⟨k, hk⟩

theorem commandRule_rdw_illegal {k : Nat} (hk : 8 < k) (b : Block) : commandRule (.rdw k) b = b.raiseError .idx := by
  simp [commandRule, rdwCommand, (wordIndex_eq_none k).mpr hk]

theorem commandRule_rdfd {k : Nat} (hk : k < 149) (b : Block) :
    commandRule (.rdfd k) b = b.respond (if k < b.fcnt.toNat then validDigit (b.readFdig k) else 0#32) := by
  have hindex : fdigIndex k = some ⟨k, hk⟩ := (fdigIndex_eq_some k _).mpr rfl
  simp [commandRule, rdfdCommand, hindex]

theorem commandRule_rdfd_illegal {k : Nat} (hk : 149 ≤ k) (b : Block) :
    commandRule (.rdfd k) b = b.raiseError .idx := by
  simp [commandRule, rdfdCommand, (fdigIndex_eq_none k).mpr hk]

theorem commandRule_rdid {k : Nat} (hk : k < 39) (b : Block) :
    commandRule (.rdid k) b = b.respond (if k < b.icnt.toNat then validDigit (b.readIdig k) else 0#32) := by
  have hindex : idigIndex k = some ⟨k, hk⟩ := (idigIndex_eq_some k _).mpr rfl
  simp [commandRule, rdidCommand, hindex]

theorem commandRule_rdid_illegal {k : Nat} (hk : 39 ≤ k) (b : Block) :
    commandRule (.rdid k) b = b.raiseError .idx := by
  simp [commandRule, rdidCommand, (idigIndex_eq_none k).mpr hk]

/-- A digit with VALID = 1 is 0x100 OR the digit (R151, R152). -/
theorem validDigit_eq_or (d : Digit) : validDigit d = 0x100#32 ||| d.setWidth 32 := by
  revert d
  decide

theorem Block.readFdig_eq_getElem (b : Block) {k : Nat} (hk : k < b.fdig.length) : b.readFdig k = b.fdig[k] :=
  List.getD_eq_getElem _ _ hk

theorem Block.readIdig_eq_getElem (b : Block) {k : Nat} (hk : k < b.idig.length) : b.readIdig k = b.idig[k] :=
  List.getD_eq_getElem _ _ hk

end Sys2Proof.Machine

open Sys2Proof Sys2Proof.Machine

/-- Settles O20: below 9 RDW reads the word, which is a base 2^32 digit of V; above 8 it raises IDX. -/
theorem rdwReadsWord : Obligations.RdwReadsWord := by
  unfold Obligations.RdwReadsWord
  refine ⟨decode_eq_ok_rdw_iff, fun s k => ⟨fun hk => ?_, fun hk => ?_⟩⟩
  · have hk9 : k < 9 := by omega
    rw [succeeds_iff, commandRule_rdw hk9, ← s.block.word_eq_ofNat hk9]
    rfl
  · rw [Fails, failsFrom_iff, commandRule_rdw_illegal hk]
    rfl

/-- Settles O21: below FCNT RDFD reads the stored digit with VALID, from there on 0, and from 149 on it raises IDX. -/
theorem rdfdReadsDigit : Obligations.RdfdReadsDigit := by
  unfold Obligations.RdfdReadsDigit
  refine ⟨decode_eq_ok_rdfd_iff, fun s k => ⟨fun hk hcnt hlen => ?_, fun hk hcnt => ?_, fun hk => ?_⟩⟩
  · rw [succeeds_iff, commandRule_rdfd hk, if_pos hcnt, validDigit_eq_or, s.block.readFdig_eq_getElem hlen]
    rfl
  · rw [succeeds_iff, commandRule_rdfd hk, if_neg (by omega)]
    rfl
  · rw [Fails, failsFrom_iff, commandRule_rdfd_illegal hk]
    rfl

/-- Settles O22: below ICNT RDID reads the stored digit with VALID, from there on 0, and from 39 on it raises IDX. -/
theorem rdidReadsDigit : Obligations.RdidReadsDigit := by
  unfold Obligations.RdidReadsDigit
  refine ⟨decode_eq_ok_rdid_iff, fun s k => ⟨fun hk hcnt hlen => ?_, fun hk hcnt => ?_, fun hk => ?_⟩⟩
  · rw [succeeds_iff, commandRule_rdid hk, if_pos hcnt, validDigit_eq_or, s.block.readIdig_eq_getElem hlen]
    rfl
  · rw [succeeds_iff, commandRule_rdid hk, if_neg (by omega)]
    rfl
  · rw [Fails, failsFrom_iff, commandRule_rdid_illegal hk]
    rfl

end

