-- ==== Sys2Proof/Proofs/PassCounts.lean ====
section
/-! SUPPORT. A view under repeated passes, and how many passes it takes to become zero (spec/42_extractor.md R134, R135,
R137, R138). -/

namespace Sys2Proof.Machine

/-- The fraction view after a pass (R134). -/
def fracNext (f : Nat) : Nat := 10 * f % 2 ^ 160

/-- The integer view after a pass (R135). -/
def intNext (v : Nat) : Nat := v / 10

/-- Repeating next on v, need is the first count, from 1 on, at which 0 is reached: a run is do-while (R132, R133). -/
structure FirstZero (next : Nat → Nat) (v need : Nat) : Prop where
  pos : 1 ≤ need
  zero : next^[need] v = 0
  ne_zero : ∀ k, 1 ≤ k → k < need → next^[k] v ≠ 0

theorem FirstZero.unique {next : Nat → Nat} {v m n : Nat} (hm : FirstZero next v m) (hn : FirstZero next v n) :
    m = n := by
  obtain hlt | heq | hgt := Nat.lt_trichotomy m n
  · exact absurd hm.zero (hn.ne_zero m hm.pos hlt)
  · exact heq
  · exact absurd hn.zero (hm.ne_zero n hn.pos hgt)

/-- After a pass that leaves a nonzero view one pass less is due. -/
theorem FirstZero.tail {next : Nat → Nat} {v m : Nat} (h : FirstZero next v (m + 2)) : FirstZero next (next v) (m + 1) where
  pos := by omega
  zero := h.zero
  ne_zero := fun k h1 hk => h.ne_zero (k + 1) (by omega) (by omega)

theorem fracNext_iterate (k : Nat) {f : Nat} (hf : f < 2 ^ 160) : fracNext^[k] f = 10 ^ k * f % 2 ^ 160 := by
  induction k with
  | zero => rw [pow_zero, one_mul, Nat.mod_eq_of_lt hf]; rfl
  | succ k ih =>
    rw [Function.iterate_succ_apply', ih, fracNext, Nat.mul_mod_mod, pow_succ']
    ring_nf

theorem intNext_iterate (k v : Nat) : intNext^[k] v = v / 10 ^ k := by
  induction k with
  | zero => simp
  | succ k ih => rw [Function.iterate_succ_apply', ih, intNext, Nat.div_div_eq_div_mul, pow_succ]

/-- A fraction pass adds one trailing zero bit to F, so an odd multiple of 2^tz is a multiple of 2^160 after 160 - tz
passes and no fewer (R137). -/
theorem fracNext_iterate_eq_zero_iff {u tz k : Nat} (hf : (2 * u + 1) * 2 ^ tz < 2 ^ 160) :
    fracNext^[k] ((2 * u + 1) * 2 ^ tz) = 0 ↔ 160 ≤ k + tz := by
  have hodd : Nat.Coprime (2 ^ 160) (5 ^ k * (2 * u + 1)) := by
    apply Nat.Coprime.pow_left
    exact Nat.Coprime.mul_right (Nat.Coprime.pow_right k (by decide)) (by simp)
  have hsplit : 10 ^ k * ((2 * u + 1) * 2 ^ tz) = 2 ^ (k + tz) * (5 ^ k * (2 * u + 1)) := by
    rw [show 10 = 2 * 5 from rfl, mul_pow, pow_add]
    ring
  rw [fracNext_iterate k hf, ← Nat.dvd_iff_mod_eq_zero, hsplit, hodd.dvd_mul_right, Nat.pow_dvd_pow_iff_le_right (by decide)]

/-- The passes due from F are the first at which the fraction view is zero (R137). -/
theorem firstZero_of_fracPassesNeeded {f need : Nat} (hf : f < 2 ^ 160) (h : fracPassesNeeded f need) :
    FirstZero fracNext f need := by
  obtain ⟨rfl, rfl⟩ | ⟨u, tz, rfl, rfl⟩ := h
  · exact ⟨Nat.le_refl 1, rfl, fun k h1 hk => by omega⟩
  · have htz : tz < 160 := by
      rw [← Nat.pow_lt_pow_iff_right (by decide : 1 < 2)]
      exact (Nat.le_mul_of_pos_left _ (by omega)).trans_lt hf
    refine ⟨by omega, (fracNext_iterate_eq_zero_iff hf).mpr (by omega), fun k h1 hk hzero => ?_⟩
    have hle := (fracNext_iterate_eq_zero_iff hf).mp hzero
    omega

/-- The passes due from I are the first at which the integer view is zero (R138). -/
theorem firstZero_of_intPassesNeeded {v need : Nat} (h : intPassesNeeded v need) : FirstZero intNext v need := by
  obtain ⟨hv, rfl⟩ | ⟨hv, hpos, hle, hlt⟩ := h
  · exact ⟨Nat.le_refl 1, Nat.div_eq_of_lt hv, fun k h1 hk => by omega⟩
  · refine ⟨hpos, by rw [intNext_iterate, Nat.div_eq_of_lt hlt], fun k h1 hk => ?_⟩
    have hpow : 10 ^ k ≤ v := (Nat.pow_le_pow_right (by decide) (by omega)).trans hle
    rw [intNext_iterate]
    exact (Nat.div_pos hpow (by positivity)).ne'

theorem exists_fracPassesNeeded (f : Nat) : ∃ need ≤ 160, fracPassesNeeded f need := by
  by_cases hf : f = 0
  · exact ⟨1, by decide, .inl ⟨hf, rfl⟩⟩
  · obtain ⟨tz, m, ⟨u, rfl⟩, rfl⟩ := Nat.exists_eq_two_pow_mul_odd hf
    exact ⟨160 - tz, by omega, .inr ⟨u, tz, mul_comm _ _, rfl⟩⟩

/-- I is below 2^128, which has 39 decimal digits (R138). -/
theorem intPassesNeeded_le {v need : Nat} (hv : v < 2 ^ 128) (h : intPassesNeeded v need) : need ≤ 39 := by
  obtain ⟨-, rfl⟩ | ⟨-, -, hle, -⟩ := h
  · decide
  · have hpow : 10 ^ (need - 1) < 10 ^ 39 := hle.trans_lt (hv.trans (by decide))
    rw [Nat.pow_lt_pow_iff_right (by decide)] at hpow
    omega

theorem exists_intPassesNeeded (v : Nat) : ∃ need, intPassesNeeded v need := by
  by_cases hv : v < 10
  · exact ⟨1, .inl ⟨hv, rfl⟩⟩
  · exact ⟨Nat.log 10 v + 1, .inr ⟨by omega, by omega, Nat.pow_log_le_self 10 (by omega),
      Nat.lt_pow_succ_log_self (by decide) v⟩⟩

/-- From FCNT = 0 with the low bits of W[0] zero the passes due fit the store (R25, R137). -/
theorem fracPassesNeeded_le {f need : Nat} (hlow : f % 2 ^ 11 = 0) (h : fracPassesNeeded f need) : need ≤ 149 := by
  obtain ⟨-, rfl⟩ | ⟨u, tz, rfl, rfl⟩ := h
  · decide
  · have hodd : Nat.Coprime (2 ^ 11) (2 * u + 1) := Nat.Coprime.pow_left 11 (by simp)
    rw [← Nat.dvd_iff_mod_eq_zero, hodd.dvd_mul_left, Nat.pow_dvd_pow_iff_le_right (by decide)] at hlow
    omega

end Sys2Proof.Machine
end

