-- ==== Sys2Proof/Proofs/Runs.lean ====
section
/-! SUPPORT. How long a run is and how it ends, for both kinds of pass at once (spec/42_extractor.md R132, R133, R137,
R138), and the digits its passes append (R139). -/

namespace Sys2Proof.Machine

/-- What a run needs to know of its passes: a pass fails exactly on a full store, and otherwise counts one digit and
moves the view on; the run's test is for a zero view, and its bound is never met. -/
structure PassLaws (pass : Block → Except ErrorCode Block) (done : Block → Bool) (fuel : Nat) (code : ErrorCode)
    (cap : Nat) (count view : Block → Nat) (next : Nat → Nat) : Prop where
  error_iff : ∀ b c, pass b = .error c ↔ count b = cap ∧ c = code
  count_eq : ∀ a b, pass a = .ok b → count a ≤ cap → count b = count a + 1 ∧ count b ≤ cap
  view_eq : ∀ a b, pass a = .ok b → view b = next (view a)
  done_iff : ∀ b, done b = true ↔ view b = 0
  ends : ∀ b, ∃ need ≤ fuel, FirstZero next (view b) need

theorem afterPasses_succ_of_ok {pass : Block → Except ErrorCode Block} {a b : Block} (h : pass a = .ok b) (n : Nat) :
    afterPasses pass (n + 1) a = afterPasses pass n b := by
  simp [afterPasses, h]

/-- The passes of a run, taken from the front. -/
theorem exists_first_pass {pass : Block → Except ErrorCode Block} {n : Nat} {a z : Block}
    (h : afterPasses pass (n + 1) a = .ok z) : ∃ b, pass a = .ok b ∧ afterPasses pass n b = .ok z := by
  unfold afterPasses at h
  split at h
  next b hb => exact ⟨b, hb, h⟩
  next => cases h

/-- The passes of a run, taken from the back. -/
theorem exists_last_pass {pass : Block → Except ErrorCode Block} {n : Nat} {a z : Block}
    (h : afterPasses pass (n + 1) a = .ok z) : ∃ y, afterPasses pass n a = .ok y ∧ pass y = .ok z := by
  induction n generalizing a with
  | zero =>
    obtain ⟨b, hb, hz⟩ := exists_first_pass h
    cases hz
    exact ⟨a, rfl, hb⟩
  | succ n ih =>
    obtain ⟨b, hb, hz⟩ := exists_first_pass h
    obtain ⟨y, hy, hlast⟩ := ih hz
    exact ⟨y, by rw [afterPasses_succ_of_ok hb, hy], hlast⟩

section
variable {pass : Block → Except ErrorCode Block} {done : Block → Bool} {fuel : Nat} {code : ErrorCode} {cap : Nat}
  {count view : Block → Nat} {next : Nat → Nat} (laws : PassLaws pass done fuel code cap count view next)
include laws

theorem PassLaws.afterPasses_count {n : Nat} {a z : Block} (h : afterPasses pass n a = .ok z) (ha : count a ≤ cap) :
    count z = count a + n ∧ count z ≤ cap := by
  induction n generalizing a with
  | zero => cases h; exact ⟨rfl, ha⟩
  | succ n ih =>
    obtain ⟨b, hb, hz⟩ := exists_first_pass h
    obtain ⟨hcount, hle⟩ := laws.count_eq a b hb ha
    obtain ⟨hn, hcap⟩ := ih hz hle
    exact ⟨by omega, hcap⟩

theorem PassLaws.afterPasses_view {n : Nat} {a z : Block} (h : afterPasses pass n a = .ok z) :
    view z = next^[n] (view a) := by
  induction n generalizing a with
  | zero => cases h; rfl
  | succ n ih =>
    obtain ⟨b, hb, hz⟩ := exists_first_pass h
    rw [ih hz, laws.view_eq a b hb, Function.iterate_succ_apply]

theorem PassLaws.pass_ok {b : Block} (h : count b ≠ cap) : ∃ z, pass b = .ok z := by
  cases hp : pass b with
  | error c => exact absurd ((laws.error_iff b c).mp hp).1 h
  | ok z => exact ⟨z, rfl⟩

/-- Everything a run with need passes due does, whatever its bound from need on: it makes them all, or fewer and meets a
full store. -/
theorem PassLaws.repeatPass_cases {need : Nat} {b : Block} (h : FirstZero next (view b) need) {bound : Nat}
    (hbound : need ≤ bound) : ∃ n z, afterPasses pass n b = .ok z ∧
      ((n = need ∧ view z = 0 ∧ repeatPass pass done bound b = (z, none)) ∨
       (n < need ∧ count z = cap ∧ repeatPass pass done bound b = (z, some code))) := by
  induction need generalizing bound b with
  | zero => exact absurd h.pos (by decide)
  | succ m ih =>
    obtain ⟨bound, rfl⟩ : ∃ k, bound = k + 1 := ⟨bound - 1, by omega⟩
    cases hp : pass b with
    | error c =>
      obtain ⟨hfull, rfl⟩ := (laws.error_iff b c).mp hp
      exact ⟨0, b, rfl, .inr ⟨by omega, hfull, by simp [repeatPass, hp]⟩⟩
    | ok b' =>
      have hview := laws.view_eq b b' hp
      cases m with
      | zero =>
        have hzero : view b' = 0 := hview.trans h.zero
        have hdone := (laws.done_iff b').mpr hzero
        exact ⟨1, b', by simp [afterPasses, hp], .inl ⟨rfl, hzero, by simp [repeatPass, hp, hdone]⟩⟩
      | succ m =>
        have hdone : done b' = false := by
          rw [Bool.eq_false_iff, ne_eq, laws.done_iff, hview]
          exact h.ne_zero 1 (by omega) (by omega)
        obtain ⟨n, z, hn, hend⟩ := ih (bound := bound) (b := b') (hview ▸ h.tail) (by omega)
        refine ⟨n + 1, z, by rw [afterPasses_succ_of_ok hp, hn], ?_⟩
        have hstep : repeatPass pass done (bound + 1) b = repeatPass pass done bound b' := by
          simp [repeatPass, hp, hdone]
        rw [hstep]
        exact hend.imp (fun ⟨he, hrest⟩ => ⟨by omega, hrest⟩) (fun ⟨hlt, hrest⟩ => ⟨by omega, hrest⟩)

/-- Everything a run does under its own bound, which is never met (R132, R133). -/
theorem PassLaws.run_cases {need : Nat} {b : Block} (h : FirstZero next (view b) need) :
    ∃ n z, afterPasses pass n b = .ok z ∧
      ((n = need ∧ view z = 0 ∧ repeatPass pass done fuel b = (z, none)) ∨
       (n < need ∧ count z = cap ∧ repeatPass pass done fuel b = (z, some code))) := by
  obtain ⟨need', hle, h'⟩ := laws.ends b
  exact laws.repeatPass_cases h (h.unique h' ▸ hle)

/-- The passes due fit the store: the run makes exactly them. -/
theorem PassLaws.run_fits {need : Nat} {b : Block} (h : FirstZero next (view b) need) (hfit : count b + need ≤ cap) :
    ∃ z, afterPasses pass need b = .ok z ∧ view z = 0 ∧ count z = count b + need ∧
      repeatPass pass done fuel b = (z, none) := by
  obtain ⟨n, z, hn, ⟨rfl, hview, hrun⟩ | ⟨hlt, hfull, -⟩⟩ := laws.run_cases h
  · exact ⟨z, hn, hview, (laws.afterPasses_count hn (by omega)).1, hrun⟩
  · have hcount := laws.afterPasses_count hn (by omega)
    omega

/-- The passes due do not fit: the run fills the store and fails. -/
theorem PassLaws.run_overflows {need : Nat} {b : Block} (h : FirstZero next (view b) need) (hle : count b ≤ cap)
    (hover : cap < count b + need) :
    ∃ z, afterPasses pass (cap - count b) b = .ok z ∧ count z = cap ∧ repeatPass pass done fuel b = (z, some code) := by
  obtain ⟨n, z, hn, hend⟩ := laws.run_cases h
  have hcount := laws.afterPasses_count hn hle
  obtain ⟨rfl, -, -⟩ | ⟨-, hfull, hrun⟩ := hend
  · omega
  · exact ⟨z, (by omega : cap - count b = n) ▸ hn, hfull, hrun⟩

end

/-- The laws of the fraction passes (R130, R134, R137). -/
theorem fracPass_laws :
    PassLaws fracPass Block.fz 160 .fovf 149 (fun b => b.fcnt.toNat) Block.fracValue fracNext where
  error_iff := fun b c => by
    have hfull : b.fcnt.toNat = 149 ↔ b.fcnt = 149#8 := by rw [← BitVec.toNat_inj]; rfl
    obtain ⟨h, hp⟩ | ⟨h, hp⟩ := fracPass_cases b <;> simp [hp, h, hfull, eq_comm]
  count_eq := fun a b h => (fracPass_step h).count
  view_eq := fun a b h => by
    have hlaw := (fracPass_step h).law
    have hlt := b.fracValue_lt
    rw [fracNext]
    omega
  done_iff := Block.fz_eq_true
  ends := fun b => by
    obtain ⟨need, hle, h⟩ := exists_fracPassesNeeded b.fracValue
    exact ⟨need, hle, firstZero_of_fracPassesNeeded b.fracValue_lt h⟩

/-- The laws of the integer passes (R131, R135, R138). -/
theorem intPass_laws :
    PassLaws intPass Block.iz 39 .iovf 39 (fun b => b.icnt.toNat) Block.intValue intNext where
  error_iff := fun b c => by
    have hfull : b.icnt.toNat = 39 ↔ b.icnt = 39#6 := by rw [← BitVec.toNat_inj]; rfl
    obtain ⟨h, hp⟩ | ⟨h, hp⟩ := intPass_cases b <;> simp [hp, h, hfull, eq_comm]
  count_eq := fun a b h => (intPass_step h).count
  view_eq := fun a b h => by
    have hlaw := (intPass_step h).law
    have hle := (intPass_step h).digit_le
    rw [intNext]
    omega
  done_iff := Block.iz_eq_true
  ends := fun b => by
    obtain ⟨need, h⟩ := exists_intPassesNeeded b.intValue
    exact ⟨need, intPassesNeeded_le b.intValue_lt h, firstZero_of_intPassesNeeded h⟩

/-- A run that ends without an error responds STATUS (R132, R133). -/
theorem finish_of_none {r : Block × Option ErrorCode} {z : Block} (h : r = (z, none)) : finish r = z.respond z.status := by
  subst h; rfl

/-- A run that meets an error raises it in the block after its passes (R132, R133, R177). -/
theorem finish_of_some {r : Block × Option ErrorCode} {z : Block} {c : ErrorCode} (h : r = (z, some c)) :
    finish r = z.raiseError c := by
  subst h; rfl

/-- Everything FRUN does with need passes due (R132, R137). -/
theorem frun_cases {b : Block} {need : Nat} (h : fracPassesNeeded b.fracValue need) :
    ∃ n z, afterPasses fracPass n b = .ok z ∧
      ((n = need ∧ z.fracValue = 0 ∧ commandRule .frun b = z.respond z.status) ∨
       (n < need ∧ z.fcnt.toNat = 149 ∧ commandRule .frun b = z.raiseError .fovf)) := by
  obtain ⟨n, z, hn, hend⟩ := fracPass_laws.run_cases (firstZero_of_fracPassesNeeded b.fracValue_lt h)
  exact ⟨n, z, hn, hend.imp (fun ⟨he, hv, hrun⟩ => ⟨he, hv, finish_of_none hrun⟩)
    (fun ⟨hlt, hc, hrun⟩ => ⟨hlt, hc, finish_of_some hrun⟩)⟩

/-- Everything IRUN does with need passes due (R133, R138). -/
theorem irun_cases {b : Block} {need : Nat} (h : intPassesNeeded b.intValue need) :
    ∃ n z, afterPasses intPass n b = .ok z ∧
      ((n = need ∧ z.intValue = 0 ∧ commandRule .irun b = z.respond z.status) ∨
       (n < need ∧ z.icnt.toNat = 39 ∧ commandRule .irun b = z.raiseError .iovf)) := by
  obtain ⟨n, z, hn, hend⟩ := intPass_laws.run_cases (firstZero_of_intPassesNeeded h)
  exact ⟨n, z, hn, hend.imp (fun ⟨he, hv, hrun⟩ => ⟨he, hv, finish_of_none hrun⟩)
    (fun ⟨hlt, hc, hrun⟩ => ⟨hlt, hc, finish_of_some hrun⟩)⟩

/-- FMUL10 with room in the store (R130). -/
theorem commandRule_fmul10 {b z : Block} (h : fracPass b = .ok z) : commandRule .fmul10 b = z.respond z.status := by
  simp [commandRule, fmul10Command, h]

/-- FMUL10 on a full store (R130, R175). -/
theorem commandRule_fmul10_full {b : Block} (h : b.fcnt = 149#8) : commandRule .fmul10 b = b.raiseError .fovf := by
  simp [commandRule, fmul10Command, fracPass, h]

/-- IDIV10 with room in the store (R131). -/
theorem commandRule_idiv10 {b z : Block} (h : intPass b = .ok z) : commandRule .idiv10 b = z.respond z.status := by
  simp [commandRule, idiv10Command, h]

/-- IDIV10 on a full store (R131, R176). -/
theorem commandRule_idiv10_full {b : Block} (h : b.icnt = 39#6) : commandRule .idiv10 b = b.raiseError .iovf := by
  simp [commandRule, idiv10Command, intPass, h]

/-- The whole effect of a fraction pass (R130). -/
theorem FracStep.eq_update {a b : Block} (h : FracStep a b) :
    b = { a with w := b.w, digit := b.digit, fdig := a.fdig ++ [b.digit], fcnt := a.fcnt + 1#8 } := by
  rw [← h.fdig_eq, ← h.fcnt_eq]
  exact h.frame

/-- The whole effect of an integer pass (R131). -/
theorem IntStep.eq_update {a b : Block} (h : IntStep a b) :
    b = { a with w := b.w, digit := b.digit, idig := a.idig ++ [b.digit], icnt := a.icnt + 1#6 } := by
  rw [← h.idig_eq, ← h.icnt_eq]
  exact h.frame

theorem exists_fracPass {b : Block} (h : b.fcnt ≠ 149#8) : ∃ z, fracPass b = .ok z :=
  fracPass_laws.pass_ok fun he => h (BitVec.eq_of_toNat_eq he)

theorem exists_intPass {b : Block} (h : b.icnt ≠ 39#6) : ∃ z, intPass b = .ok z :=
  intPass_laws.pass_ok fun he => h (BitVec.eq_of_toNat_eq he)

end Sys2Proof.Machine

open Sys2Proof Sys2Proof.Machine

/-- Settles O12: a fraction pass has room and obeys its law, or FMUL10 raises FOVF. -/
theorem fmul10MultipliesFraction : Obligations.Fmul10MultipliesFraction := by
  unfold Obligations.Fmul10MultipliesFraction
  refine fun s => ⟨fun hroom => ?_, fun hfull => ?_⟩
  · obtain ⟨z, hz⟩ := exists_fracPass hroom
    have hstep := fracPass_step hz
    refine ⟨z.w, z.digit, hstep.digit_le, ?_, fun k hk => hstep.high_words k k.isLt hk, ?_⟩
    · rw [hstep.law]
      exact congrArg _ (Block.fracValue_congr rfl)
    · rw [← hstep.eq_update, succeeds_iff, commandRule_fmul10 hz]
      rfl
  · rw [Fails, failsFrom_iff, commandRule_fmul10_full hfull]
    rfl

/-- Settles O13: an integer pass has room and obeys its law, or IDIV10 raises IOVF. -/
theorem idiv10DividesInteger : Obligations.Idiv10DividesInteger := by
  unfold Obligations.Idiv10DividesInteger
  refine fun s => ⟨fun hroom => ?_, fun hfull => ?_⟩
  · obtain ⟨z, hz⟩ := exists_intPass hroom
    have hstep := intPass_step hz
    refine ⟨z.w, z.digit, hstep.digit_le, ?_, fun k hk => hstep.low_words k k.isLt hk, ?_⟩
    · rw [hstep.law]
      exact congrArg (10 * · + z.digit.toNat) (Block.intValue_congr rfl)
    · rw [← hstep.eq_update, succeeds_iff, commandRule_idiv10 hz]
      rfl
  · rw [Fails, failsFrom_iff, commandRule_idiv10_full hfull]
    rfl

/-- Settles O14: the passes due fit the store or fill it, and with the low bits of F zero at most 149 are due. -/
theorem frunLength : Obligations.FrunLength := by
  unfold Obligations.FrunLength
  refine ⟨fun s need h => ⟨fun hfit => ?_, fun hle hover => ?_⟩, fun s hempty hlow => ?_⟩
  · obtain ⟨z, hn, hview, hcount, hrun⟩ :=
      fracPass_laws.run_fits (firstZero_of_fracPassesNeeded s.block.fracValue_lt h) hfit
    exact ⟨z, hn, hview, hcount, (succeeds_iff ..).mpr (finish_of_none hrun)⟩
  · obtain ⟨z, hn, hfull, hrun⟩ :=
      fracPass_laws.run_overflows (firstZero_of_fracPassesNeeded s.block.fracValue_lt h) hle hover
    exact ⟨z, hn, hfull, (failsFrom_iff ..).mpr (finish_of_some hrun)⟩
  · obtain ⟨need, -, h⟩ := exists_fracPassesNeeded s.block.fracValue
    have hfirst := firstZero_of_fracPassesNeeded s.block.fracValue_lt h
    have hle := fracPassesNeeded_le (s.block.fracValue_low.trans hlow) h
    obtain ⟨z, hn, -, -, hrun⟩ := fracPass_laws.run_fits hfirst (by simpa [hempty] using hle)
    exact ⟨z, need, hfirst.pos, hle, hn, (succeeds_iff ..).mpr (finish_of_none hrun)⟩

/-- Settles O15: the passes due fit the store or fill it, and at most 39 are due. -/
theorem irunLength : Obligations.IrunLength := by
  unfold Obligations.IrunLength
  refine ⟨fun s need h => ⟨intPassesNeeded_le s.block.intValue_lt h, fun hfit => ?_, fun hle hover => ?_⟩,
    fun s hempty => ?_⟩
  · obtain ⟨z, hn, hview, hcount, hrun⟩ := intPass_laws.run_fits (firstZero_of_intPassesNeeded h) hfit
    exact ⟨z, hn, hview, hcount, (succeeds_iff ..).mpr (finish_of_none hrun)⟩
  · obtain ⟨z, hn, hfull, hrun⟩ := intPass_laws.run_overflows (firstZero_of_intPassesNeeded h) hle hover
    exact ⟨z, hn, hfull, (failsFrom_iff ..).mpr (finish_of_some hrun)⟩
  · obtain ⟨need, h⟩ := exists_intPassesNeeded s.block.intValue
    have hfirst := firstZero_of_intPassesNeeded h
    have hle := intPassesNeeded_le s.block.intValue_lt h
    obtain ⟨z, hn, -, -, hrun⟩ := intPass_laws.run_fits hfirst (by simpa [hempty] using hle)
    exact ⟨z, need, hfirst.pos, hle, hn, (succeeds_iff ..).mpr (finish_of_none hrun)⟩

end

