-- ==== Sys2Proof/Proofs/DigitRuns.lean ====
section
/-! SUPPORT. What the passes of an extraction command leave in the block: the digits they append, the view those digits
account for, and the fields they do not touch (spec/42_extractor.md R134 to R139, spec/60_exceptions.md R177). -/

namespace Sys2Proof.Machine

/-- What fraction passes with the digits ds do; an error raised after them changes nothing of it (R134, R139). -/
structure FracRun (a : Block) (ds : List Digit) (z : Block) : Prop where
  fdig_eq : z.fdig = a.fdig ++ ds
  fcnt_eq : z.fcnt = a.fcnt + BitVec.ofNat 8 ds.length
  digit_eq : z.digit = ds.getLastD a.digit
  digits_le : ∀ d ∈ ds, d.toNat ≤ 9
  value : (a.fracValue : ℚ) / 2 ^ 160 = ds.foldr (fun d (acc : ℚ) => (d.toNat + acc) / 10) ((z.fracValue : ℚ) / 2 ^ 160)
  high_words : ∀ (k : Nat) (hk : k < 9), 5 ≤ k → z.w[k] = a.w[k]
  icnt_eq : z.icnt = a.icnt
  idig_eq : z.idig = a.idig

/-- What integer passes with the digits ds do; an error raised after them changes nothing of it (R135, R139). -/
structure IntRun (a : Block) (ds : List Digit) (z : Block) : Prop where
  idig_eq : z.idig = a.idig ++ ds
  icnt_eq : z.icnt = a.icnt + BitVec.ofNat 6 ds.length
  digit_eq : z.digit = ds.getLastD a.digit
  digits_le : ∀ d ∈ ds, d.toNat ≤ 9
  value : a.intValue = ds.foldr (fun d acc => d.toNat + 10 * acc) z.intValue
  low_words : ∀ (k : Nat) (hk : k < 9), k ≤ 4 → z.w[k] = a.w[k]
  fcnt_eq : z.fcnt = a.fcnt
  fdig_eq : z.fdig = a.fdig

theorem FracRun.refl (a : Block) : FracRun a [] a where
  fdig_eq := (List.append_nil _).symm
  fcnt_eq := (BitVec.add_zero _).symm
  digit_eq := rfl
  digits_le := List.forall_mem_nil _
  value := by rw [List.foldr_nil]
  high_words := fun _ _ _ => rfl
  icnt_eq := rfl
  idig_eq := rfl

theorem IntRun.refl (a : Block) : IntRun a [] a where
  idig_eq := (List.append_nil _).symm
  icnt_eq := (BitVec.add_zero _).symm
  digit_eq := rfl
  digits_le := List.forall_mem_nil _
  value := by rw [List.foldr_nil]
  low_words := fun _ _ _ => rfl
  fcnt_eq := rfl
  fdig_eq := rfl

/-- Counting one digit and then n more is counting n + 1. -/
theorem ofNat_count_succ {m : Nat} (x : BitVec m) (n : Nat) :
    x + BitVec.ofNat m 1 + BitVec.ofNat m n = x + BitVec.ofNat m (n + 1) := by
  rw [BitVec.add_assoc, ← BitVec.ofNat_add, Nat.add_comm]

theorem FracRun.cons {a b z : Block} {ds : List Digit} (hstep : FracStep a b) (h : FracRun b ds z) :
    FracRun a (b.digit :: ds) z where
  fdig_eq := by rw [h.fdig_eq, hstep.fdig_eq, List.append_assoc]; rfl
  fcnt_eq := by rw [h.fcnt_eq, hstep.fcnt_eq, ofNat_count_succ, List.length_cons]
  digit_eq := by rw [h.digit_eq, List.getLastD_cons]
  digits_le := List.forall_mem_cons.mpr ⟨hstep.digit_le, h.digits_le⟩
  value := by
    have hlaw : (10 : ℚ) * a.fracValue = b.digit.toNat * 2 ^ 160 + b.fracValue := mod_cast hstep.law
    rw [List.foldr_cons, ← h.value]
    linarith
  high_words := fun k hk h5 => (h.high_words k hk h5).trans (hstep.high_words k hk h5)
  icnt_eq := h.icnt_eq.trans hstep.icnt_eq
  idig_eq := h.idig_eq.trans hstep.idig_eq

theorem IntRun.cons {a b z : Block} {ds : List Digit} (hstep : IntStep a b) (h : IntRun b ds z) :
    IntRun a (b.digit :: ds) z where
  idig_eq := by rw [h.idig_eq, hstep.idig_eq, List.append_assoc]; rfl
  icnt_eq := by rw [h.icnt_eq, hstep.icnt_eq, ofNat_count_succ, List.length_cons]
  digit_eq := by rw [h.digit_eq, List.getLastD_cons]
  digits_le := List.forall_mem_cons.mpr ⟨hstep.digit_le, h.digits_le⟩
  value := by rw [List.foldr_cons, ← h.value, hstep.law, Nat.add_comm]
  low_words := fun k hk h4 => (h.low_words k hk h4).trans (hstep.low_words k hk h4)
  fcnt_eq := h.fcnt_eq.trans hstep.fcnt_eq
  fdig_eq := h.fdig_eq.trans hstep.fdig_eq

theorem FracRun.recordError {a z : Block} {ds : List Digit} (h : FracRun a ds z) (c : ErrorCode) :
    FracRun a ds (z.recordError c) where
  fdig_eq := h.fdig_eq
  fcnt_eq := h.fcnt_eq
  digit_eq := h.digit_eq
  digits_le := h.digits_le
  value := h.value
  high_words := h.high_words
  icnt_eq := h.icnt_eq
  idig_eq := h.idig_eq

theorem IntRun.recordError {a z : Block} {ds : List Digit} (h : IntRun a ds z) (c : ErrorCode) :
    IntRun a ds (z.recordError c) where
  idig_eq := h.idig_eq
  icnt_eq := h.icnt_eq
  digit_eq := h.digit_eq
  digits_le := h.digits_le
  value := h.value
  low_words := h.low_words
  fcnt_eq := h.fcnt_eq
  fdig_eq := h.fdig_eq

/-- n fraction passes append n digits. -/
theorem exists_fracRun {n : Nat} {a z : Block} (h : afterPasses fracPass n a = .ok z) :
    ∃ ds, ds.length = n ∧ FracRun a ds z := by
  induction n generalizing a with
  | zero => cases h; exact ⟨[], rfl, .refl _⟩
  | succ n ih =>
    obtain ⟨b, hb, hz⟩ := exists_first_pass h
    obtain ⟨ds, hlen, hrun⟩ := ih hz
    exact ⟨b.digit :: ds, by rw [List.length_cons, hlen], hrun.cons (fracPass_step hb)⟩

/-- n integer passes append n digits. -/
theorem exists_intRun {n : Nat} {a z : Block} (h : afterPasses intPass n a = .ok z) :
    ∃ ds, ds.length = n ∧ IntRun a ds z := by
  induction n generalizing a with
  | zero => cases h; exact ⟨[], rfl, .refl _⟩
  | succ n ih =>
    obtain ⟨b, hb, hz⟩ := exists_first_pass h
    obtain ⟨ds, hlen, hrun⟩ := ih hz
    exact ⟨b.digit :: ds, by rw [List.length_cons, hlen], hrun.cons (intPass_step hb)⟩

/-- How a command made of passes ends: it responds after some passes, or the pass after them fails (R177). -/
def EndsAfterPasses (pass : Block → Except ErrorCode Block) (code : ErrorCode) (b : Block) (r : Block × Response) : Prop :=
  ∃ n z, afterPasses pass n b = .ok z ∧
    (r = z.respond z.status ∨ (pass z = .error code ∧ r = z.raiseError code))

/-- A run ends after some passes, with the only error its passes can raise. -/
theorem endsAfterPasses_run {pass : Block → Except ErrorCode Block} {code : ErrorCode}
    (herr : ∀ b c, pass b = .error c → c = code) (done : Block → Bool) (fuel : Nat) (b : Block) :
    EndsAfterPasses pass code b (finish (repeatPass pass done fuel b)) := by
  obtain ⟨n, -, hn, ⟨hnone, -⟩ | ⟨hnone, -⟩ | ⟨c, hsome, hpass⟩⟩ := repeatPass_cases pass done fuel b
  · exact ⟨n, _, hn, .inl (finish_of_none (Prod.ext rfl hnone))⟩
  · exact ⟨n, _, hn, .inl (finish_of_none (Prod.ext rfl hnone))⟩
  · obtain rfl := herr _ c hpass
    exact ⟨n, _, hn, .inr ⟨hpass, finish_of_some (Prod.ext rfl hsome)⟩⟩

theorem fracCommand_ends {i : Instr} (hi : i = .fmul10 ∨ i = .frun) (b : Block) :
    EndsAfterPasses fracPass .fovf b (commandRule i b) := by
  have hrun := endsAfterPasses_run (pass := fracPass) fun _ _ => fracPass_error
  obtain rfl | rfl := hi
  · rw [commandRule, fmul10Command_eq_run]
    exact hrun _ _ b
  · exact hrun Block.fz 160 b

theorem intCommand_ends {i : Instr} (hi : i = .idiv10 ∨ i = .irun) (b : Block) :
    EndsAfterPasses intPass .iovf b (commandRule i b) := by
  have hrun := endsAfterPasses_run (pass := intPass) fun _ _ => intPass_error
  obtain rfl | rfl := hi
  · rw [commandRule, idiv10Command_eq_run]
    exact hrun _ _ b
  · exact hrun Block.iz 39 b

/-- A fraction command does what some fraction passes do (R130, R132). -/
theorem fracCommand_run {i : Instr} (hi : i = .fmul10 ∨ i = .frun) (b : Block) :
    ∃ ds, FracRun b ds (commandRule i b).1 := by
  obtain ⟨n, z, hn, hend⟩ := fracCommand_ends hi b
  obtain ⟨ds, -, hrun⟩ := exists_fracRun hn
  refine ⟨ds, ?_⟩
  obtain hend | ⟨-, hend⟩ := hend <;> rw [hend]
  · exact hrun
  · exact hrun.recordError _

/-- An integer command does what some integer passes do (R131, R133). -/
theorem intCommand_run {i : Instr} (hi : i = .idiv10 ∨ i = .irun) (b : Block) :
    ∃ ds, IntRun b ds (commandRule i b).1 := by
  obtain ⟨n, z, hn, hend⟩ := intCommand_ends hi b
  obtain ⟨ds, -, hrun⟩ := exists_intRun hn
  refine ⟨ds, ?_⟩
  obtain hend | ⟨-, hend⟩ := hend <;> rw [hend]
  · exact hrun
  · exact hrun.recordError _

/-- A FRUN that responds has made the passes due from F, and its view is zero (R132, R137). -/
theorem frun_success {b : Block} {need : Nat} (h : fracPassesNeeded b.fracValue need)
    (hok : (commandRule .frun b).2.err = false) :
    ∃ z, commandRule .frun b = z.respond z.status ∧ afterPasses fracPass need b = .ok z ∧ z.fracValue = 0 := by
  obtain ⟨n, z, hn, ⟨rfl, hview, hrule⟩ | ⟨-, -, hrule⟩⟩ := frun_cases h
  · exact ⟨z, hrule, hn, hview⟩
  · simp [hrule] at hok

/-- An IRUN that responds has made the passes due from I, and its view is zero (R133, R138). -/
theorem irun_success {b : Block} {need : Nat} (h : intPassesNeeded b.intValue need)
    (hok : (commandRule .irun b).2.err = false) :
    ∃ z, commandRule .irun b = z.respond z.status ∧ afterPasses intPass need b = .ok z ∧ z.intValue = 0 := by
  obtain ⟨n, z, hn, ⟨rfl, hview, hrule⟩ | ⟨-, -, hrule⟩⟩ := irun_cases h
  · exact ⟨z, hrule, hn, hview⟩
  · simp [hrule] at hok

/-- The views depend on their own words alone (R23). -/
theorem Block.intValue_eq_of_high_words {a z : Block} (h : ∀ (k : Nat) (hk : k < 9), 5 ≤ k → z.w[k] = a.w[k]) :
    z.intValue = a.intValue := by
  simp only [Block.intValue, h 5 (by decide) (by decide), h 6 (by decide) (by decide), h 7 (by decide) (by decide),
    h 8 (by decide) (by decide)]

theorem Block.fracValue_eq_of_low_words {a z : Block} (h : ∀ (k : Nat) (hk : k < 9), k ≤ 4 → z.w[k] = a.w[k]) :
    z.fracValue = a.fracValue := by
  simp only [Block.fracValue, h 0 (by decide) (by decide), h 1 (by decide) (by decide), h 2 (by decide) (by decide),
    h 3 (by decide) (by decide), h 4 (by decide) (by decide)]

/-- A digit d with 10·F = d·2^160 for a nonzero F is 5: it is a multiple of 5, and not 0 (R134, R139). -/
theorem digit_eq_five {f d : Nat} (hlaw : 10 * f = d * 2 ^ 160) (hf : f ≠ 0) (hd : d ≤ 9) : d = 5 := by
  have hdvd : 5 ∣ d * 2 ^ 160 := ⟨2 * f, by rw [← hlaw]; ring⟩
  obtain ⟨k, rfl⟩ := (Nat.Coprime.dvd_mul_right (by decide)).mp hdvd
  have hk : k ≠ 0 := by
    rintro rfl
    simp [hf] at hlaw
  omega

/-- The last pass of a run that leaves F = 0: it started from F ≠ 0, so its digit is 5 (R139). -/
theorem fdig_getLast_of_run {need : Nat} {a z : Block} (h : fracPassesNeeded a.fracValue need)
    (hn : afterPasses fracPass need a = .ok z) (ha : a.fracValue ≠ 0) (hz : z.fracValue = 0) :
    z.fdig.getLast? = some 5#4 := by
  have hfirst := firstZero_of_fracPassesNeeded a.fracValue_lt h
  obtain ⟨m, rfl⟩ : ∃ m, need = m + 1 := ⟨need - 1, by have := hfirst.pos; omega⟩
  obtain ⟨y, hy, hlast⟩ := exists_last_pass hn
  have hy0 : y.fracValue ≠ 0 := by
    rw [fracPass_laws.afterPasses_view hy]
    cases m with
    | zero => rwa [Function.iterate_zero_apply]
    | succ m => exact hfirst.ne_zero (m + 1) (by omega) (by omega)
  have hstep := fracPass_step hlast
  have hlaw : 10 * y.fracValue = z.digit.toNat * 2 ^ 160 := by rw [hstep.law, hz, Nat.add_zero]
  have h5 : z.digit = 5#4 := BitVec.eq_of_toNat_eq (digit_eq_five hlaw hy0 hstep.digit_le)
  rw [hstep.fdig_eq, List.getLast?_concat, h5]

/-- The last pass of a run that leaves I = 0 started from I ≠ 0, so its digit is not 0 (R139). -/
theorem idig_getLast_of_run {need : Nat} {a z : Block} (h : intPassesNeeded a.intValue need)
    (hn : afterPasses intPass need a = .ok z) (ha : a.intValue ≠ 0) (hz : z.intValue = 0) :
    z.idig.getLast? ≠ some 0#4 := by
  have hfirst := firstZero_of_intPassesNeeded h
  obtain ⟨m, rfl⟩ : ∃ m, need = m + 1 := ⟨need - 1, by have := hfirst.pos; omega⟩
  obtain ⟨y, hy, hlast⟩ := exists_last_pass hn
  have hy0 : y.intValue ≠ 0 := by
    rw [intPass_laws.afterPasses_view hy]
    cases m with
    | zero => rwa [Function.iterate_zero_apply]
    | succ m => exact hfirst.ne_zero (m + 1) (by omega) (by omega)
  have hstep := intPass_step hlast
  have hlaw := hstep.law
  rw [hstep.idig_eq, List.getLast?_concat, ne_eq, Option.some.injEq]
  intro h0
  rw [h0, BitVec.toNat_ofNat] at hlaw
  omega

/-- From F = 0 a FRUN that responds appends the one digit 0 (R132, R139). -/
theorem fdig_of_zero_run {a z : Block} (ha : a.fracValue = 0) (hn : afterPasses fracPass 1 a = .ok z) :
    z.fdig = a.fdig ++ [0#4] := by
  obtain ⟨b, hb, hz⟩ := exists_first_pass hn
  cases hz
  have hstep := fracPass_step hb
  have hlaw := hstep.law
  have h0 : z.digit = 0#4 := BitVec.eq_of_toNat_eq (by rw [BitVec.toNat_ofNat]; omega)
  rw [hstep.fdig_eq, h0]

/-- From I = 0 an IRUN that responds appends the one digit 0 (R133, R139). -/
theorem idig_of_zero_run {a z : Block} (ha : a.intValue = 0) (hn : afterPasses intPass 1 a = .ok z) :
    z.idig = a.idig ++ [0#4] := by
  obtain ⟨b, hb, hz⟩ := exists_first_pass hn
  cases hz
  have hstep := intPass_step hb
  have hlaw := hstep.law
  have h0 : z.digit = 0#4 := BitVec.eq_of_toNat_eq (by rw [BitVec.toNat_ofNat]; omega)
  rw [hstep.idig_eq, h0]

/-- What a successful FRUN from an empty fraction store leaves (R139). -/
structure FracExact (a z : Block) : Prop where
  value : fdigValue z = (a.fracValue : ℚ) / 2 ^ 160
  length : z.fdig.length = z.fcnt.toNat
  last : a.fracValue ≠ 0 → z.fdig.getLast? = some 5#4
  zero : a.fracValue = 0 → z.fdig = [0#4]

/-- What a successful IRUN from an empty integer store leaves (R139). -/
structure IntExact (a z : Block) : Prop where
  value : idigValue z = a.intValue
  length : z.idig.length = z.icnt.toNat
  last : a.intValue ≠ 0 → z.idig.getLast? ≠ some 0#4
  zero : a.intValue = 0 → z.idig = [0#4]

theorem frun_exact {a : Block} (hcnt : a.fcnt = 0#8) (hdig : a.fdig = [])
    (hok : (commandRule .frun a).2.err = false) : FracExact a (commandRule .frun a).1 := by
  obtain ⟨need, -, hneed⟩ := exists_fracPassesNeeded a.fracValue
  obtain ⟨z, hrule, hn, hview⟩ := frun_success hneed hok
  obtain ⟨ds, hlen, hrun⟩ := exists_fracRun hn
  have hfdig : z.fdig = ds := by rw [hrun.fdig_eq, hdig, List.nil_append]
  have hcount := fracPass_laws.afterPasses_count hn (by simp [hcnt])
  simp only [hcnt, BitVec.toNat_ofNat] at hcount
  rw [hrule]
  refine ⟨?_, by rw [Block.respond_fst, hfdig]; omega, fun ha => fdig_getLast_of_run hneed hn ha hview, fun ha => ?_⟩
  · rw [Block.respond_fst, fdigValue, hfdig, hrun.value, hview, Nat.cast_zero, zero_div]
  · obtain ⟨z', hrule', hn', -⟩ := frun_success (.inl ⟨ha, rfl⟩) hok
    rw [← hrule, hrule']
    exact (fdig_of_zero_run ha hn').trans (by rw [hdig]; rfl)

theorem irun_exact {a : Block} (hcnt : a.icnt = 0#6) (hdig : a.idig = [])
    (hok : (commandRule .irun a).2.err = false) : IntExact a (commandRule .irun a).1 := by
  obtain ⟨need, hneed⟩ := exists_intPassesNeeded a.intValue
  obtain ⟨z, hrule, hn, hview⟩ := irun_success hneed hok
  obtain ⟨ds, hlen, hrun⟩ := exists_intRun hn
  have hidig : z.idig = ds := by rw [hrun.idig_eq, hdig, List.nil_append]
  have hcount := intPass_laws.afterPasses_count hn (by simp [hcnt])
  simp only [hcnt, BitVec.toNat_ofNat] at hcount
  rw [hrule]
  refine ⟨?_, by rw [Block.respond_fst, hidig]; omega, fun ha => idig_getLast_of_run hneed hn ha hview, fun ha => ?_⟩
  · rw [Block.respond_fst, idigValue, hidig, hrun.value, hview]
  · obtain ⟨z', hrule', hn', -⟩ := irun_success (.inl ⟨by omega, rfl⟩) hok
    rw [← hrule, hrule']
    exact (idig_of_zero_run ha hn').trans (by rw [hdig]; rfl)

/-- Integer passes after a successful FRUN leave its digits (R140). -/
theorem FracExact.of_intRun {a y z : Block} {ds : List Digit} (h : FracExact a y) (hrun : IntRun y ds z) :
    FracExact a z where
  value := by rw [fdigValue, hrun.fdig_eq]; exact h.value
  length := by rw [hrun.fdig_eq, hrun.fcnt_eq, h.length]
  last := fun h0 => by rw [hrun.fdig_eq, h.last h0]
  zero := fun h0 => by rw [hrun.fdig_eq, h.zero h0]

/-- Fraction passes before a successful IRUN leave it the same integer view (R140). -/
theorem IntExact.of_fracRun {a y z : Block} {ds : List Digit} (h : IntExact y z) (hrun : FracRun a ds y) :
    IntExact a z := by
  have hview := Block.intValue_eq_of_high_words hrun.high_words
  exact ⟨h.value.trans hview, h.length, fun hne => h.last (hview ▸ hne), fun h0 => h.zero (hview.trans h0)⟩

end Sys2Proof.Machine

open Sys2Proof Sys2Proof.Machine

/-- Settles O16: a run that responds has made the passes due, at least one, and its view is zero. -/
theorem runsEndAtZero : Obligations.RunsEndAtZero := by
  unfold Obligations.RunsEndAtZero
  refine fun s t => ⟨fun h hok => ?_, fun h hok => ?_⟩
  · obtain rfl := exec_next _ s t h
    obtain ⟨need, -, hneed⟩ := exists_fracPassesNeeded s.block.fracValue
    obtain ⟨z, hrule, hn, hview⟩ := frun_success hneed hok
    obtain ⟨ds, hlen, hrun⟩ := exists_fracRun hn
    have hpos := (firstZero_of_fracPassesNeeded s.block.fracValue_lt hneed).pos
    rw [State.commit_block, hrule]
    exact ⟨hview, z.fz_eq_true.mpr hview, by simp only [Block.respond_fst, hrun.fdig_eq, List.length_append]; omega⟩
  · obtain rfl := exec_next _ s t h
    obtain ⟨need, hneed⟩ := exists_intPassesNeeded s.block.intValue
    obtain ⟨z, hrule, hn, hview⟩ := irun_success hneed hok
    obtain ⟨ds, hlen, hrun⟩ := exists_intRun hn
    have hpos := (firstZero_of_intPassesNeeded hneed).pos
    rw [State.commit_block, hrule]
    exact ⟨hview, z.iz_eq_true.mpr hview, by simp only [Block.respond_fst, hrun.idig_eq, List.length_append]; omega⟩

/-- Settles O17: FRUN is exact on the fraction side and leaves the integer side, on which IRUN is exact in turn. -/
theorem digitsAreExact : Obligations.DigitsAreExact := by
  unfold Obligations.DigitsAreExact
  intro s t u hfcnt hicnt hfdig hidig hst hok htu hok'
  obtain rfl := exec_next _ s t hst
  obtain rfl := exec_next _ _ u htu
  obtain ⟨fs, hfrac⟩ := fracCommand_run (.inr rfl) s.block
  obtain ⟨is, hint⟩ := intCommand_run (.inr rfl) (commandRule .frun s.block).1
  have hF := frun_exact hfcnt hfdig hok
  have hI := irun_exact (hfrac.icnt_eq.trans hicnt) (hfrac.idig_eq.trans hidig) hok'
  simp only [State.commit_block]
  have hF' := hF.of_intRun hint
  have hI' := hI.of_fracRun hfrac
  exact ⟨hF'.value, hI'.value, hF'.length, hI'.length, hF'.last, hF'.zero, hI'.last, hI'.zero⟩

end

