-- ==== Sys2Proof/Proofs/CommandErrors.lean ====
section
/-! SUPPORT. When a command's response is an error, and what the block then is (spec/60_exceptions.md R173 to R177,
R179, R182). -/

namespace Sys2Proof.Machine

/-- A rule that responds unless P holds, and raises an error if it does, errs exactly when P holds. -/
theorem err_eq_true_iff {r : Block × Response} {P : Prop} (hok : ¬ P → ∃ z data, r = Block.respond z data)
    (herr : P → ∃ z c, r = Block.raiseError z c) : r.2.err = true ↔ P := by
  by_cases hP : P
  · obtain ⟨z, c, rfl⟩ := herr hP
    simp [hP]
  · obtain ⟨z, data, rfl⟩ := hok hP
    simp [hP]

theorem setbit_err_iff (pos : Int) (b : Block) :
    (commandRule (.setbit pos) b).2.err = true ↔ pos < -22 ∨ 254 < pos :=
  err_eq_true_iff
    (fun h => by
      obtain ⟨j, -, hrule⟩ := commandRule_setbit (pos := pos) (by omega) b
      exact ⟨_, _, hrule⟩)
    (fun h => ⟨_, _, commandRule_setbit_illegal h b⟩)

theorem rdw_err_iff (k : Nat) (b : Block) : (commandRule (.rdw k) b).2.err = true ↔ 8 < k :=
  err_eq_true_iff (fun h => ⟨_, _, commandRule_rdw (k := k) (by omega) b⟩) (fun h => ⟨_, _, commandRule_rdw_illegal h b⟩)

theorem rdfd_err_iff (k : Nat) (b : Block) : (commandRule (.rdfd k) b).2.err = true ↔ 149 ≤ k :=
  err_eq_true_iff (fun h => ⟨_, _, commandRule_rdfd (k := k) (by omega) b⟩)
    (fun h => ⟨_, _, commandRule_rdfd_illegal h b⟩)

theorem rdid_err_iff (k : Nat) (b : Block) : (commandRule (.rdid k) b).2.err = true ↔ 39 ≤ k :=
  err_eq_true_iff (fun h => ⟨_, _, commandRule_rdid (k := k) (by omega) b⟩)
    (fun h => ⟨_, _, commandRule_rdid_illegal h b⟩)

theorem fmul10_err_iff (b : Block) : (commandRule .fmul10 b).2.err = true ↔ b.fcnt.toNat = 149 :=
  err_eq_true_iff
    (fun h => by
      obtain ⟨z, hz⟩ := fracPass_laws.pass_ok h
      exact ⟨_, _, commandRule_fmul10 hz⟩)
    (fun h => ⟨_, _, commandRule_fmul10_full (BitVec.eq_of_toNat_eq h)⟩)

theorem idiv10_err_iff (b : Block) : (commandRule .idiv10 b).2.err = true ↔ b.icnt.toNat = 39 :=
  err_eq_true_iff
    (fun h => by
      obtain ⟨z, hz⟩ := intPass_laws.pass_ok h
      exact ⟨_, _, commandRule_idiv10 hz⟩)
    (fun h => ⟨_, _, commandRule_idiv10_full (BitVec.eq_of_toNat_eq h)⟩)

theorem frun_err_iff {b : Block} {need : Nat} (hneed : fracPassesNeeded b.fracValue need) (hle : b.fcnt.toNat ≤ 149) :
    (commandRule .frun b).2.err = true ↔ 149 < b.fcnt.toNat + need :=
  have hfirst := firstZero_of_fracPassesNeeded b.fracValue_lt hneed
  err_eq_true_iff
    (fun h => by
      obtain ⟨z, -, -, -, hrun⟩ := fracPass_laws.run_fits hfirst (not_lt.mp h)
      exact ⟨_, _, finish_of_none hrun⟩)
    (fun h => by
      obtain ⟨z, -, -, hrun⟩ := fracPass_laws.run_overflows hfirst hle h
      exact ⟨_, _, finish_of_some hrun⟩)

theorem irun_err_iff {b : Block} {need : Nat} (hneed : intPassesNeeded b.intValue need) (hle : b.icnt.toNat ≤ 39) :
    (commandRule .irun b).2.err = true ↔ 39 < b.icnt.toNat + need :=
  have hfirst := firstZero_of_intPassesNeeded hneed
  err_eq_true_iff
    (fun h => by
      obtain ⟨z, -, -, -, hrun⟩ := intPass_laws.run_fits hfirst (not_lt.mp h)
      exact ⟨_, _, finish_of_none hrun⟩)
    (fun h => by
      obtain ⟨z, -, -, hrun⟩ := intPass_laws.run_overflows hfirst hle h
      exact ⟨_, _, finish_of_some hrun⟩)

/-- A FRUN that errs leaves a full fraction store (R132, R175). -/
theorem frun_err_full {b : Block} (h : (commandRule .frun b).2.err = true) : (commandRule .frun b).1.fcnt.toNat = 149 := by
  obtain ⟨need, -, hneed⟩ := exists_fracPassesNeeded b.fracValue
  obtain ⟨n, z, -, ⟨-, -, hrule⟩ | ⟨-, hfull, hrule⟩⟩ := frun_cases hneed
  · simp [hrule] at h
  · rw [hrule]
    exact hfull

/-- An IRUN that errs leaves a full integer store (R133, R176). -/
theorem irun_err_full {b : Block} (h : (commandRule .irun b).2.err = true) : (commandRule .irun b).1.icnt.toNat = 39 := by
  obtain ⟨need, hneed⟩ := exists_intPassesNeeded b.intValue
  obtain ⟨n, z, -, ⟨-, -, hrule⟩ | ⟨-, hfull, hrule⟩⟩ := irun_cases hneed
  · simp [hrule] at h
  · rw [hrule]
    exact hfull

/-- An error is raised in the block before the command, or for a run in the block after its passes (R177, R182). -/
theorem commandRule_error {i : Instr} {b : Block} (h : (commandRule i b).2.err = true) :
    ∃ z c, commandRule i b = z.raiseError c ∧
      ((i ≠ .frun ∧ i ≠ .irun ∧ z = b) ∨
        (i = .frun ∧ ∃ n, afterPasses fracPass n b = .ok z ∧ fracPass z = .error .fovf) ∨
        (i = .irun ∧ ∃ n, afterPasses intPass n b = .ok z ∧ intPass z = .error .iovf)) := by
  cases i with
  | nop | clr => cases h
  | setbit pos => exact ⟨b, _, commandRule_setbit_illegal ((setbit_err_iff pos b).mp h) b, .inl ⟨nofun, nofun, rfl⟩⟩
  | fmul10 =>
    have hfull : b.fcnt = 149#8 := BitVec.eq_of_toNat_eq ((fmul10_err_iff b).mp h)
    exact ⟨b, _, commandRule_fmul10_full hfull, .inl ⟨nofun, nofun, rfl⟩⟩
  | idiv10 =>
    have hfull : b.icnt = 39#6 := BitVec.eq_of_toNat_eq ((idiv10_err_iff b).mp h)
    exact ⟨b, _, commandRule_idiv10_full hfull, .inl ⟨nofun, nofun, rfl⟩⟩
  | frun =>
    obtain ⟨n, z, hn, hrule | ⟨hpass, hrule⟩⟩ := fracCommand_ends (.inr rfl) b
    · simp [hrule] at h
    · exact ⟨z, _, hrule, .inr (.inl ⟨rfl, n, hn, hpass⟩)⟩
  | irun =>
    obtain ⟨n, z, hn, hrule | ⟨hpass, hrule⟩⟩ := intCommand_ends (.inr rfl) b
    · simp [hrule] at h
    · exact ⟨z, _, hrule, .inr (.inr ⟨rfl, n, hn, hpass⟩)⟩
  | rdw k => exact ⟨b, _, commandRule_rdw_illegal ((rdw_err_iff k b).mp h) b, .inl ⟨nofun, nofun, rfl⟩⟩
  | rdfd k => exact ⟨b, _, commandRule_rdfd_illegal ((rdfd_err_iff k b).mp h) b, .inl ⟨nofun, nofun, rfl⟩⟩
  | rdid k => exact ⟨b, _, commandRule_rdid_illegal ((rdid_err_iff k b).mp h) b, .inl ⟨nofun, nofun, rfl⟩⟩

/-- A reading command leaves every field but the error pair (R56). -/
theorem commandRule_read_frame {i : Instr} (hi : i = .nop ∨ ∃ k, i = .rdw k ∨ i = .rdfd k ∨ i = .rdid k) (b : Block) :
    (commandRule i b).1 = { b with err := (commandRule i b).1.err, ecode := (commandRule i b).1.ecode } := by
  obtain ⟨data, hrule⟩ | hrule := commandRule_read hi b <;> rw [hrule] <;> rfl

/-- SETBIT leaves every field but the accumulator and the error pair (R122). -/
theorem commandRule_setbit_frame (pos : Int) (b : Block) :
    (commandRule (.setbit pos) b).1 = { b with
      w := (commandRule (.setbit pos) b).1.w
      err := (commandRule (.setbit pos) b).1.err
      ecode := (commandRule (.setbit pos) b).1.ecode } := by
  by_cases h : -22 ≤ pos ∧ pos ≤ 254
  · obtain ⟨j, -, hrule⟩ := commandRule_setbit h b
    rw [hrule]
    rfl
  · rw [commandRule_setbit_illegal (by omega)]
    rfl

/-- SETBIT changes at most the bit it addresses (R21, R122). -/
theorem commandRule_setbit_testBit {pos : Int} {j : Nat} (hj : (j : Int) ≠ pos + 33) (b : Block) :
    (commandRule (.setbit pos) b).1.accValue.testBit j = b.accValue.testBit j := by
  by_cases h : -22 ≤ pos ∧ pos ≤ 254
  · obtain ⟨i, hi, hrule⟩ := commandRule_setbit h b
    have hne : i.val ≠ j := by omega
    rw [hrule, Block.respond_fst, Block.setAccBit_accValue, Nat.testBit_or, Nat.testBit_two_pow_of_ne hne, Bool.or_false]
  · rw [commandRule_setbit_illegal (by omega), Block.raiseError_fst,
      Block.accValue_congr (Block.recordError_w b .pos)]

/-- DIGIT, the counts and the stores of a are those of b. -/
def Block.SameDigits (a b : Block) : Prop :=
  a.digit = b.digit ∧ a.fcnt = b.fcnt ∧ a.icnt = b.icnt ∧ a.fdig = b.fdig ∧ a.idig = b.idig

theorem commandRule_read_w {i : Instr} (hi : i = .nop ∨ ∃ k, i = .rdw k ∨ i = .rdfd k ∨ i = .rdid k) (b : Block) :
    (commandRule i b).1.w = b.w := by
  rw [commandRule_read_frame hi]

theorem commandRule_read_sameDigits {i : Instr} (hi : i = .nop ∨ ∃ k, i = .rdw k ∨ i = .rdfd k ∨ i = .rdid k)
    (b : Block) : (commandRule i b).1.SameDigits b := by
  rw [commandRule_read_frame hi]
  exact ⟨rfl, rfl, rfl, rfl, rfl⟩

theorem commandRule_setbit_sameDigits (pos : Int) (b : Block) : (commandRule (.setbit pos) b).1.SameDigits b := by
  rw [commandRule_setbit_frame]
  exact ⟨rfl, rfl, rfl, rfl, rfl⟩

/-- A fraction command writes no integer word (R21). -/
theorem fracCommand_high_words {i : Instr} (hi : i = .fmul10 ∨ i = .frun) (b : Block) (k : Fin 9) (hk : 5 ≤ k.val) :
    (commandRule i b).1.w[k] = b.w[k] := by
  obtain ⟨ds, hrun⟩ := fracCommand_run hi b
  exact hrun.high_words k k.isLt hk

/-- An integer command writes no fraction word (R21). -/
theorem intCommand_low_words {i : Instr} (hi : i = .idiv10 ∨ i = .irun) (b : Block) (k : Fin 9) (hk : k.val ≤ 4) :
    (commandRule i b).1.w[k] = b.w[k] := by
  obtain ⟨ds, hrun⟩ := intCommand_run hi b
  exact hrun.low_words k k.isLt hk

end Sys2Proof.Machine

open Sys2Proof Sys2Proof.Machine

/-- Settles O24: each rule responds or raises by one condition, and a run by whether the passes due fit the store. -/
theorem errorExactlyWhen : Obligations.ErrorExactlyWhen := by
  unfold Obligations.ErrorExactlyWhen
  intro s t
  have hrule : ∀ {i}, exec i s = .next t → t = s.commit (commandRule i s.block) := fun h => exec_next _ s t h
  refine ⟨fun h => ?_, fun h => ?_, fun pos h => ?_, fun k h => ?_, fun k h => ?_, fun k h => ?_, fun h => ?_, fun h => ?_,
    fun h => ?_, fun h => ?_, fun need hneed hle h => ?_, fun need hneed hle h => ?_⟩ <;> obtain rfl := hrule h
  · rfl
  · rfl
  · exact setbit_err_iff pos s.block
  · exact rdw_err_iff k s.block
  · exact rdfd_err_iff k s.block
  · exact rdid_err_iff k s.block
  · exact fmul10_err_iff s.block
  · exact idiv10_err_iff s.block
  · exact frun_err_full
  · exact irun_err_full
  · exact frun_err_iff hneed hle
  · exact irun_err_iff hneed hle

/-- Settles O27: an error is raised in one block, and raising it touches ERR, ECODE and the response alone. -/
theorem errorsArePrecise : Obligations.ErrorsArePrecise := by
  unfold Obligations.ErrorsArePrecise
  refine ⟨fun i s t h herr => ?_, fun w s t hw h => ?_⟩
  · obtain rfl := exec_next i s t h
    obtain ⟨z, c, hrule, hz⟩ := commandRule_error herr
    rw [hrule]
    exact ⟨rfl, z, rfl, hz⟩
  · rw [execWord_illegal hw] at h
    obtain rfl := Host.Outcome.next.inj h
    exact ⟨rfl, rfl⟩

/-- Settles O28: reads keep the words, SETBIT sets one bit, and passes write one view's words. -/
theorem accumulatorWriters : Obligations.AccumulatorWriters := by
  unfold Obligations.AccumulatorWriters
  intro i s t h
  obtain rfl := exec_next i s t h
  cases i with
  | nop | rdw k | rdfd k | rdid k => exact commandRule_read_w (by simp) s.block
  | clr => exact fun k => Block.reset_w_getElem k.val k.isLt
  | setbit pos => exact fun j hj => commandRule_setbit_testBit hj s.block
  | fmul10 | frun => exact fracCommand_high_words (by simp) s.block
  | idiv10 | irun => exact intCommand_low_words (by simp) s.block

/-- Settles O29: reads and SETBIT keep the digit state, CLR resets it, and passes append their digits to one store. -/
theorem digitStateWriters : Obligations.DigitStateWriters := by
  unfold Obligations.DigitStateWriters
  intro i s t h
  obtain rfl := exec_next i s t h
  have hfrac := fun hi => fracCommand_run (i := i) hi s.block
  have hint := fun hi => intCommand_run (i := i) hi s.block
  cases i with
  | nop | rdw k | rdfd k | rdid k => exact commandRule_read_sameDigits (by simp) s.block
  | clr => exact ⟨rfl, rfl, rfl, rfl, rfl⟩
  | setbit pos => exact commandRule_setbit_sameDigits pos s.block
  | fmul10 | frun =>
    obtain ⟨ds, hrun⟩ := hfrac (by simp)
    exact ⟨ds, hrun.fdig_eq, hrun.fcnt_eq, hrun.digit_eq, hrun.digits_le, hrun.icnt_eq, hrun.idig_eq⟩
  | idiv10 | irun =>
    obtain ⟨ds, hrun⟩ := hint (by simp)
    exact ⟨ds, hrun.idig_eq, hrun.icnt_eq, hrun.digit_eq, hrun.digits_le, hrun.fcnt_eq, hrun.fdig_eq⟩

end

