-- ==== Sys2Proof/Proofs/Independence.lean ====
section
/-! SUPPORT. Fraction commands see the fraction side only, and integer commands the integer side (spec/42_extractor.md
R140): two blocks that agree on a side still do after the same command. -/

namespace Sys2Proof.Machine

/-- Words 0 to 4 are the base 2^32 digits of F (R23). -/
theorem Block.word_eq_fracValue_digit (b : Block) (k : Fin 9) (hk : k.val ≤ 4) :
    b.w[k].toNat = b.fracValue / 2 ^ (32 * k.val) % 2 ^ 32 := by
  fin_cases k <;> simp [Block.fracValue] at hk ⊢ <;> omega

/-- Words 5 to 8 are the base 2^32 digits of I (R23). -/
theorem Block.word_eq_intValue_digit (b : Block) (k : Fin 9) (hk : 5 ≤ k.val) :
    b.w[k].toNat = b.intValue / 2 ^ (32 * (k.val - 5)) % 2 ^ 32 := by
  fin_cases k <;> simp [Block.intValue] at hk ⊢ <;> omega

/-- Equal fraction views are equal fraction words. -/
theorem Block.fracValue_eq_iff (a b : Block) :
    a.fracValue = b.fracValue ↔ ∀ k : Fin 9, k.val ≤ 4 → a.w[k] = b.w[k] := by
  refine ⟨fun h k hk => BitVec.eq_of_toNat_eq ?_, fun h => Block.fracValue_eq_of_low_words fun k hk => h ⟨k, hk⟩⟩
  rw [a.word_eq_fracValue_digit k hk, b.word_eq_fracValue_digit k hk, h]

/-- Equal integer views are equal integer words. -/
theorem Block.intValue_eq_iff (a b : Block) :
    a.intValue = b.intValue ↔ ∀ k : Fin 9, 5 ≤ k.val → a.w[k] = b.w[k] := by
  refine ⟨fun h k hk => BitVec.eq_of_toNat_eq ?_, fun h => Block.intValue_eq_of_high_words fun k hk => h ⟨k, hk⟩⟩
  rw [a.word_eq_intValue_digit k hk, b.word_eq_intValue_digit k hk, h]

/-- Two blocks agree on the fraction side, and on DIGIT if P holds. -/
structure FracAgree (P : Prop) (a b : Block) : Prop where
  view : a.fracValue = b.fracValue
  count : a.fcnt = b.fcnt
  store : a.fdig = b.fdig
  digit : P → a.digit = b.digit

/-- Two blocks agree on the integer side, and on DIGIT if P holds. -/
structure IntAgree (P : Prop) (a b : Block) : Prop where
  view : a.intValue = b.intValue
  count : a.icnt = b.icnt
  store : a.idig = b.idig
  digit : P → a.digit = b.digit

/-- The digit and the view after a fraction pass are functions of the view before it (R134). -/
theorem FracStep.digit_and_view {a b : Block} (h : FracStep a b) :
    b.digit.toNat = 10 * a.fracValue / 2 ^ 160 ∧ b.fracValue = 10 * a.fracValue % 2 ^ 160 := by
  have hlt := b.fracValue_lt
  rw [h.law]
  omega

/-- The digit and the view after an integer pass are functions of the view before it (R135). -/
theorem IntStep.digit_and_view {a b : Block} (h : IntStep a b) :
    b.digit.toNat = a.intValue % 10 ∧ b.intValue = a.intValue / 10 := by
  have hle := h.digit_le
  rw [h.law]
  omega

/-- On related blocks a pass fails with one error, or succeeds and leaves related blocks. -/
def PassKeeps (R : Block → Block → Prop) (pass : Block → Except ErrorCode Block) : Prop :=
  ∀ a b, R a b → (∃ c, pass a = .error c ∧ pass b = .error c) ∨ ∃ a' b', pass a = .ok a' ∧ pass b = .ok b' ∧ R a' b'

theorem fracPass_keeps_agree (P : Prop) : PassKeeps (FracAgree P) fracPass := by
  intro a b h
  by_cases hfull : a.fcnt = 149#8
  · exact .inl ⟨.fovf, by simp [fracPass, hfull], by simp [fracPass, ← h.count, hfull]⟩
  · obtain ⟨a', ha⟩ := exists_fracPass hfull
    obtain ⟨b', hb⟩ := exists_fracPass (h.count ▸ hfull)
    have hsa := fracPass_step ha
    have hsb := fracPass_step hb
    obtain ⟨hda, hva⟩ := hsa.digit_and_view
    obtain ⟨hdb, hvb⟩ := hsb.digit_and_view
    have hdigit : a'.digit = b'.digit := BitVec.eq_of_toNat_eq (by rw [hda, hdb, h.view])
    exact .inr ⟨a', b', ha, hb, by rw [hva, hvb, h.view], by rw [hsa.fcnt_eq, hsb.fcnt_eq, h.count],
      by rw [hsa.fdig_eq, hsb.fdig_eq, h.store, hdigit], fun _ => hdigit⟩

theorem intPass_keeps_agree (P : Prop) : PassKeeps (IntAgree P) intPass := by
  intro a b h
  by_cases hfull : a.icnt = 39#6
  · exact .inl ⟨.iovf, by simp [intPass, hfull], by simp [intPass, ← h.count, hfull]⟩
  · obtain ⟨a', ha⟩ := exists_intPass hfull
    obtain ⟨b', hb⟩ := exists_intPass (h.count ▸ hfull)
    have hsa := intPass_step ha
    have hsb := intPass_step hb
    obtain ⟨hda, hva⟩ := hsa.digit_and_view
    obtain ⟨hdb, hvb⟩ := hsb.digit_and_view
    have hdigit : a'.digit = b'.digit := BitVec.eq_of_toNat_eq (by rw [hda, hdb, h.view])
    exact .inr ⟨a', b', ha, hb, by rw [hva, hvb, h.view], by rw [hsa.icnt_eq, hsb.icnt_eq, h.count],
      by rw [hsa.idig_eq, hsb.idig_eq, h.store, hdigit], fun _ => hdigit⟩

/-- Runs from related blocks end alike, in related blocks. -/
theorem repeatPass_keeps {R : Block → Block → Prop} {pass : Block → Except ErrorCode Block} (hpass : PassKeeps R pass)
    {done : Block → Bool} (hdone : ∀ a b, R a b → done a = done b) (fuel : Nat) {a b : Block} (h : R a b) :
    R (repeatPass pass done fuel a).1 (repeatPass pass done fuel b).1 ∧
      (repeatPass pass done fuel a).2 = (repeatPass pass done fuel b).2 := by
  induction fuel generalizing a b with
  | zero => exact ⟨h, rfl⟩
  | succ fuel ih =>
    unfold repeatPass
    obtain ⟨c, ha, hb⟩ | ⟨a', b', ha, hb, h'⟩ := hpass a b h
    · simp only [ha, hb]
      exact ⟨h, trivial⟩
    · simp only [ha, hb, hdone a' b' h']
      cases done b' with
      | true => exact ⟨h', rfl⟩
      | false => exact ih h'

/-- The end of a run keeps a relation that errors do not disturb, and the kind of its response. -/
theorem finish_keeps {R : Block → Block → Prop} (herr : ∀ a b c, R a b → R (a.recordError c) (b.recordError c))
    {r s : Block × Option ErrorCode} (h : R r.1 s.1) (he : r.2 = s.2) :
    R (finish r).1 (finish s).1 ∧ (finish r).2.err = (finish s).2.err := by
  obtain ⟨a, x⟩ := r
  obtain ⟨b, y⟩ := s
  obtain rfl : x = y := he
  cases x with
  | none => exact ⟨h, rfl⟩
  | some c => exact ⟨herr a b c h, rfl⟩

theorem FracAgree.fz_eq {P : Prop} {a b : Block} (h : FracAgree P a b) : a.fz = b.fz := by
  rw [Bool.eq_iff_iff, a.fz_eq_true, b.fz_eq_true, h.view]

theorem IntAgree.iz_eq {P : Prop} {a b : Block} (h : IntAgree P a b) : a.iz = b.iz := by
  rw [Bool.eq_iff_iff, a.iz_eq_true, b.iz_eq_true, h.view]

/-- A fraction command keeps two blocks that agree on the fraction side agreeing there, and errs in both or in neither
(R140). -/
theorem fracCommand_keeps_agree {i : Instr} (hi : i = .fmul10 ∨ i = .frun) {P : Prop} {a b : Block}
    (h : FracAgree P a b) : FracAgree P (commandRule i a).1 (commandRule i b).1 ∧
      (commandRule i a).2.err = (commandRule i b).2.err := by
  have herr : ∀ x y c, FracAgree P x y → FracAgree P (x.recordError c) (y.recordError c) :=
    fun x y c hxy => ⟨hxy.view, hxy.count, hxy.store, hxy.digit⟩
  obtain rfl | rfl := hi
  · obtain ⟨hr, he⟩ := repeatPass_keeps (fracPass_keeps_agree P) (done := fun _ => true) (fun _ _ _ => rfl) 1 h
    simp only [commandRule, fmul10Command_eq_run]
    exact finish_keeps herr hr he
  · obtain ⟨hr, he⟩ := repeatPass_keeps (fracPass_keeps_agree P) (fun _ _ hxy => hxy.fz_eq) 160 h
    exact finish_keeps herr hr he

/-- An integer command keeps two blocks that agree on the integer side agreeing there, and errs in both or in neither
(R140). -/
theorem intCommand_keeps_agree {i : Instr} (hi : i = .idiv10 ∨ i = .irun) {P : Prop} {a b : Block}
    (h : IntAgree P a b) : IntAgree P (commandRule i a).1 (commandRule i b).1 ∧
      (commandRule i a).2.err = (commandRule i b).2.err := by
  have herr : ∀ x y c, IntAgree P x y → IntAgree P (x.recordError c) (y.recordError c) :=
    fun x y c hxy => ⟨hxy.view, hxy.count, hxy.store, hxy.digit⟩
  obtain rfl | rfl := hi
  · obtain ⟨hr, he⟩ := repeatPass_keeps (intPass_keeps_agree P) (done := fun _ => true) (fun _ _ _ => rfl) 1 h
    simp only [commandRule, idiv10Command_eq_run]
    exact finish_keeps herr hr he
  · obtain ⟨hr, he⟩ := repeatPass_keeps (intPass_keeps_agree P) (fun _ _ hxy => hxy.iz_eq) 39 h
    exact finish_keeps herr hr he

/-- An error response sets ERR, and nothing but CLR clears it (R32, R178). -/
theorem EndsFrom.err_eq {b : Block} {code : Option ErrorCode} {r : Block × Response} (h : EndsFrom b code r) :
    r.1.err = (b.err || r.2.err) := by
  cases h with
  | success a data h => simp [h.1]
  | error a c hc h => simp

/-- ECODE takes the code of a first error, and stands otherwise (R178). -/
theorem EndsFrom.ecode_eq {b : Block} {c : ErrorCode} {r : Block × Response} (h : EndsFrom b (some c) r) :
    r.1.ecode = if r.2.err = true ∧ b.err = false then c.code else b.ecode := by
  cases h with
  | success a data h => simp [h.2]
  | error a c' hc h =>
    obtain rfl := Option.some.inj hc
    simp only [Block.raiseError_fst, Block.raiseError_snd, Block.recordError_ecode, h.1, h.2, true_and]
    cases b.err <;> rfl

/-- An integer command leaves the fraction side. -/
theorem IntRun.fracAgree {a z : Block} {ds : List Digit} (h : IntRun a ds z) : FracAgree False z a :=
  ⟨Block.fracValue_eq_of_low_words h.low_words, h.fcnt_eq, h.fdig_eq, False.elim⟩

/-- A fraction command leaves the integer side. -/
theorem FracRun.intAgree {a z : Block} {ds : List Digit} (h : FracRun a ds z) : IntAgree False z a :=
  ⟨Block.intValue_eq_of_high_words h.high_words, h.icnt_eq, h.idig_eq, False.elim⟩

/-- Two blocks that agree on both sides are equal but for DIGIT and the error pair. -/
theorem Block.eq_of_agree {a b : Block} (hf : FracAgree False a b) (hi : IntAgree False a b) :
    a = { b with digit := a.digit, err := a.err, ecode := a.ecode } := by
  have hlow := (Block.fracValue_eq_iff a b).mp hf.view
  have hhigh := (Block.intValue_eq_iff a b).mp hi.view
  have hw : a.w = b.w := by
    ext k hk : 1
    by_cases h4 : k ≤ 4
    · exact hlow ⟨k, hk⟩ h4
    · exact hhigh ⟨k, hk⟩ (by dsimp only; omega)
  rw [← hw, ← hf.count, ← hf.store, ← hi.count, ← hi.store]

theorem FracAgree.trans {P : Prop} {a b c : Block} (hab : FracAgree P a b) (hbc : FracAgree P b c) : FracAgree P a c :=
  ⟨hab.view.trans hbc.view, hab.count.trans hbc.count, hab.store.trans hbc.store,
    fun hP => (hab.digit hP).trans (hbc.digit hP)⟩

theorem IntAgree.trans {P : Prop} {a b c : Block} (hab : IntAgree P a b) (hbc : IntAgree P b c) : IntAgree P a c :=
  ⟨hab.view.trans hbc.view, hab.count.trans hbc.count, hab.store.trans hbc.store,
    fun hP => (hab.digit hP).trans (hbc.digit hP)⟩

theorem FracAgree.symm {P : Prop} {a b : Block} (h : FracAgree P a b) : FracAgree P b a :=
  ⟨h.view.symm, h.count.symm, h.store.symm, fun hP => (h.digit hP).symm⟩

/-- FRUN then IRUN and IRUN then FRUN leave blocks that agree on both sides, and each run errs in both orders or in
neither (R140). -/
theorem runs_agree (b : Block) :
    let a := commandRule .frun b
    let ab := commandRule .irun a.1
    let c := commandRule .irun b
    let ba := commandRule .frun c.1
    FracAgree False ab.1 ba.1 ∧ IntAgree False ab.1 ba.1 ∧ ba.2.err = a.2.err ∧ ab.2.err = c.2.err := by
  intro a ab c ba
  obtain ⟨_, ha⟩ := fracCommand_run (.inr rfl) b
  obtain ⟨_, hab⟩ := intCommand_run (.inr rfl) a.1
  obtain ⟨_, hc⟩ := intCommand_run (.inr rfl) b
  obtain ⟨_, hba⟩ := fracCommand_run (.inr rfl) c.1
  obtain ⟨hfrac, hferr⟩ := fracCommand_keeps_agree (.inr rfl) hc.fracAgree
  obtain ⟨hint, hierr⟩ := intCommand_keeps_agree (.inr rfl) ha.intAgree
  refine ⟨hab.fracAgree.trans hfrac.symm, hint.trans ?_, hferr, hierr⟩
  exact ⟨hba.intAgree.view.symm, hba.intAgree.count.symm, hba.intAgree.store.symm, False.elim⟩

/-- ERR after both runs is the same in both orders (R178). -/
theorem runs_err (b : Block) :
    (commandRule .irun (commandRule .frun b).1).1.err = (commandRule .frun (commandRule .irun b).1).1.err := by
  have hfrun := fun x => commandRule_endsFrom .frun x (by decide)
  have hirun := fun x => commandRule_endsFrom .irun x (by decide)
  obtain ⟨-, -, hferr, hierr⟩ := runs_agree b
  rw [(hirun _).err_eq, (hfrun b).err_eq, (hfrun _).err_eq, (hirun b).err_eq, hferr, hierr, Bool.or_assoc,
    Bool.or_assoc, Bool.or_comm (commandRule .frun b).2.err]

/-- ECODE after both runs: the code of the run that failed first in the order, if no error stood before (R178). -/
theorem runs_ecode (b : Block) :
    let a := commandRule .frun b
    let ab := commandRule .irun a.1
    let c := commandRule .irun b
    let ba := commandRule .frun c.1
    ((a.2.err = true ∧ ab.2.err = true ∧ b.err = false) → ab.1.ecode = 4#4 ∧ ba.1.ecode = 5#4) ∧
    (¬ (a.2.err = true ∧ ab.2.err = true ∧ b.err = false) → ab.1.ecode = ba.1.ecode) := by
  intro a ab c ba
  have ha : EndsFrom b (some .fovf) a := commandRule_endsFrom .frun b (by decide)
  have hab : EndsFrom a.1 (some .iovf) ab := commandRule_endsFrom .irun a.1 (by decide)
  have hc : EndsFrom b (some .iovf) c := commandRule_endsFrom .irun b (by decide)
  have hba : EndsFrom c.1 (some .fovf) ba := commandRule_endsFrom .frun c.1 (by decide)
  obtain ⟨-, -, hferr, hierr⟩ : FracAgree False ab.1 ba.1 ∧ IntAgree False ab.1 ba.1 ∧ _ := runs_agree b
  rw [hab.ecode_eq, ha.err_eq, ha.ecode_eq, hba.ecode_eq, hc.err_eq, hc.ecode_eq, hferr, hierr]
  cases b.err <;> cases a.2.err <;> cases c.2.err <;> simp [ErrorCode.code]

end Sys2Proof.Machine

open Sys2Proof Sys2Proof.Machine

/-- Settles O18: passes keep the other side's fields, and agreement on their own side is kept by every pass. -/
theorem fractionAndIntegerIndependent : Obligations.FractionAndIntegerIndependent := by
  unfold Obligations.FractionAndIntegerIndependent
  refine ⟨fun i hi s t h => ?_, fun i hi s t h => ?_⟩
  · have hi : i = .fmul10 ∨ i = .frun := by simpa using hi
    obtain rfl := exec_next i s t h
    obtain ⟨ds, hrun⟩ := fracCommand_run hi s.block
    have hend := commandRule_endsFrom i s.block (by rintro rfl; simp at hi)
    refine ⟨rfl, fun k hk => hrun.high_words k k.isLt hk, hrun.icnt_eq, hrun.idig_eq,
      fun hok => hend.sameErrors_of_success hok, fun s' t' h' hw hcount hstore => ?_⟩
    obtain rfl := exec_next i s' t' h'
    have hview := (Block.fracValue_eq_iff _ _).mpr hw
    obtain ⟨hagree, herr⟩ := fracCommand_keeps_agree hi
      (P := s'.block.digit = s.block.digit) (a := s'.block) (b := s.block) ⟨hview, hcount, hstore, id⟩
    exact ⟨(Block.fracValue_eq_iff _ _).mp hagree.view, hagree.count, hagree.store, herr, hagree.digit⟩
  · have hi : i = .idiv10 ∨ i = .irun := by simpa using hi
    obtain rfl := exec_next i s t h
    obtain ⟨ds, hrun⟩ := intCommand_run hi s.block
    have hend := commandRule_endsFrom i s.block (by rintro rfl; simp at hi)
    refine ⟨rfl, fun k hk => hrun.low_words k k.isLt hk, hrun.fcnt_eq, hrun.fdig_eq,
      fun hok => hend.sameErrors_of_success hok, fun s' t' h' hw hcount hstore => ?_⟩
    obtain rfl := exec_next i s' t' h'
    have hview := (Block.intValue_eq_iff _ _).mpr hw
    obtain ⟨hagree, herr⟩ := intCommand_keeps_agree hi
      (P := s'.block.digit = s.block.digit) (a := s'.block) (b := s.block) ⟨hview, hcount, hstore, id⟩
    exact ⟨(Block.intValue_eq_iff _ _).mp hagree.view, hagree.count, hagree.store, herr, hagree.digit⟩

/-- Settles O19: each run reads its own side as the start left it, so each order gives each side the same end; the error
pair tells only which error came first. -/
theorem runsCommute : Obligations.RunsCommute := by
  unfold Obligations.RunsCommute
  intro s a ab b ba ha hab hb hba
  obtain rfl := exec_next _ s a ha
  obtain rfl := exec_next _ _ ab hab
  obtain rfl := exec_next _ s b hb
  obtain rfl := exec_next _ _ ba hba
  obtain ⟨hfrac, hint, -, -⟩ := runs_agree s.block
  obtain ⟨hboth, helse⟩ := runs_ecode s.block
  refine ⟨?_, ?_⟩
  · simp only [State.commit_block]
    rw [Block.eq_of_agree hfrac hint, ← runs_err s.block]
  · split
    next h => exact hboth h
    next h => exact helse h

end

