-- ==== Sys2Proof/Proofs/HostSteps.lean ====
section
/-! SUPPORT. The step by what the host does next (spec/20_memory.md R60 to R64, R69, spec/70_reset_and_hazards.md R202
to R212). -/

namespace Sys2Proof.Machine

/-- A step takes the host's next move. -/
theorem step_of_moves {s : State} {m : HostMove} {rest : List HostMove} (h : s.moves = m :: rest) :
    step s = hostMove m rest s := by
  simp [step, h]

/-- A step without a move changes nothing (R191). -/
theorem step_of_no_moves {s : State} (h : s.moves = []) : step s = .next s := by
  simp [step, h]

theorem State.ready_iff (s : State) : s.ready = true ↔ s.rsp = none := by
  simp [State.ready]

/-- An offered word is accepted by a block that has been reset and has no response waiting (R60). -/
theorem hostMove_command {s : State} (hup : s.up = true) (hrsp : s.rsp = none) (w : Word) (rest : List HostMove) :
    hostMove (.command w) rest s = execWord w { s with moves := rest } := by
  simp [hostMove, hup, s.ready_iff.mpr hrsp]

/-- A word that was not held is accepted as the word drawn (R69). -/
theorem hostMove_unheld {s : State} (hup : s.up = true) (hrsp : s.rsp = none) (rest : List HostMove) :
    hostMove .unheldCommand rest s =
      execWord (Config.undeterminedWord s.draws) { s with moves := rest, draws := s.draws + 1 } := by
  simp [hostMove, hup, s.ready_iff.mpr hrsp]

/-- While a response waits an offered word is not accepted (R61, R62). -/
theorem hostMove_command_waiting {s : State} (hup : s.up = true) (hrsp : s.rsp ≠ none) (w : Word)
    (rest : List HostMove) : hostMove (.command w) rest s = .next s := by
  have hready : s.ready = false := by rwa [Bool.eq_false_iff, ne_eq, s.ready_iff]
  simp [hostMove, hup, hready]

theorem hostMove_unheld_waiting {s : State} (hup : s.up = true) (hrsp : s.rsp ≠ none) (rest : List HostMove) :
    hostMove .unheldCommand rest s = .next s := by
  have hready : s.ready = false := by rwa [Bool.eq_false_iff, ne_eq, s.ready_iff]
  simp [hostMove, hup, hready]

/-- The host takes a waiting response (R61). -/
theorem hostMove_take {s : State} (hup : s.up = true) (rest : List HostMove) :
    hostMove .take rest s = .next { s with moves := rest }.takeResponse := by
  simp [hostMove, hup]

theorem hostMove_reset (rest : List HostMove) (s : State) :
    hostMove .reset rest s = .next { s with moves := rest }.atReset := rfl

/-- A machine that has been reset answers every move, and stays so. -/
theorem exists_hostMove_next {s : State} (hup : s.up = true) (m : HostMove) (rest : List HostMove) :
    ∃ t, hostMove m rest s = .next t ∧ t.up = true := by
  obtain ⟨-, he⟩ | ⟨-, he⟩ | ⟨-, he⟩ | ⟨-, w, n, he⟩ := hostMove_cases m rest s hup
  all_goals exact ⟨_, he, by simp [hup]⟩

theorem run_succ {s t : State} (h : step s = .next t) (n : Nat) :
    Host.Core.run core (n + 1) s = Host.Core.run core n t := by
  have hstep : core.step s = .next t := h
  simp only [Host.Core.run, hstep]

/-- Two steps send a word and take its response (R61, R63). -/
theorem run_two_steps {s : State} (hup : s.up = true) (hrsp : s.rsp = none) {w : Word} {rest : List HostMove}
    (hmoves : s.moves = .command w :: .take :: rest) (n : Nat) :
    Host.Core.run core (n + 2) s = Host.Core.run core n { s with
      block := (transact s.block w).1, moves := rest, taken := s.taken ++ [(transact s.block w).2] } := by
  have hsend : step s = .next ({ s with moves := .take :: rest }.commit (transact s.block w)) := by
    rw [step_of_moves hmoves, hostMove_command hup hrsp, execWord_eq_commit]
  have htake : step ({ s with moves := .take :: rest }.commit (transact s.block w)) = .next { s with
      block := (transact s.block w).1, moves := rest, taken := s.taken ++ [(transact s.block w).2] } := by
    rw [step_of_moves rfl, hostMove_take (by exact hup), State.takeResponse_some _ _ rfl]
    simp [State.commit, hrsp]
  rw [run_succ hsend, run_succ htake]

/-- Exec of any word but CLR's keeps a standing error and its code (R32, R178). -/
theorem transact_keeps_error {w : Word} (hw : decode w ≠ .ok .clr) {b : Block} (hb : b.err = true) :
    (transact b w).1.err = true ∧ (transact b w).1.ecode = b.ecode := by
  cases hdec : decode w with
  | error e => simp [transact_illegal hdec, hb]
  | ok i =>
    rw [transact_of_decode hdec]
    exact (commandRule_endsFrom i b (by rintro rfl; exact hw hdec)).keeps_error hb

/-- A move keeps a standing error, unless it is a reset or a word of CLR that the block accepts (R32). -/
theorem hostMove_keeps_error {m : HostMove} {rest : List HostMove} {s t : State} (h : hostMove m rest s = .next t)
    (hs : s.block.err = true) :
    (t.block.err = true ∧ t.block.ecode = s.block.ecode) ∨ m = .reset ∨
      ∃ w, decode w = .ok .clr ∧ s.ready = true ∧
        (m = .command w ∨ (m = .unheldCommand ∧ w = Config.undeterminedWord s.draws)) := by
  cases hup : s.up with
  | false =>
    rw [hostMove_before_reset m rest s hup] at h
    split at h
    next hm => exact .inr (.inl hm)
    next => cases h
  | true =>
    cases m with
    | reset => exact .inr (.inl rfl)
    | take =>
      rw [hostMove_take hup] at h
      obtain rfl := Host.Outcome.next.inj h
      exact .inl (by simp [hs])
    | command w =>
      by_cases hrsp : s.rsp = none
      · rw [hostMove_command hup hrsp, execWord_eq_commit] at h
        obtain rfl := Host.Outcome.next.inj h
        by_cases hw : decode w = .ok .clr
        · exact .inr (.inr ⟨w, hw, s.ready_iff.mpr hrsp, .inl rfl⟩)
        · exact .inl (transact_keeps_error hw hs)
      · rw [hostMove_command_waiting hup hrsp] at h
        obtain rfl := Host.Outcome.next.inj h
        exact .inl ⟨hs, rfl⟩
    | unheldCommand =>
      by_cases hrsp : s.rsp = none
      · rw [hostMove_unheld hup hrsp, execWord_eq_commit] at h
        obtain rfl := Host.Outcome.next.inj h
        by_cases hw : decode (Config.undeterminedWord s.draws) = .ok .clr
        · exact .inr (.inr ⟨_, hw, s.ready_iff.mpr hrsp, .inr ⟨rfl, rfl⟩⟩)
        · exact .inl (transact_keeps_error hw hs)
      · rw [hostMove_unheld_waiting hup hrsp] at h
        obtain rfl := Host.Outcome.next.inj h
        exact .inl ⟨hs, rfl⟩

/-- A command under way keeps a standing error, unless it is CLR (R32). -/
theorem advanceCommand_keeps_error {w : Word} {left : Nat} {o : Offer} {s : State} {c : CycleState}
    (hw : decode w ≠ .ok .clr) (hs : s.block.err = true) (h : advanceCommand w left o s = .next c) :
    c.machine.block.err = true ∧ c.machine.block.ecode = s.block.ecode := by
  obtain ⟨-, he⟩ | ⟨-, he⟩ := advanceCommand_cases w left o s <;> rw [he] at h <;> obtain rfl := Host.Outcome.next.inj h
  · exact transact_keeps_error hw hs
  · exact ⟨hs, rfl⟩

end Sys2Proof.Machine

open Sys2Proof Sys2Proof.Machine

/-- Settles O50: both views of the reset block are zero, and STATUS says so. -/
theorem statusAfterReset : Obligations.StatusAfterReset := by
  unfold Obligations.StatusAfterReset
  exact ⟨Block.reset_status, by decide, by decide⟩

/-- Settles O33: a reset move leads to `State.atReset`, whose block is the reset block, as CLR's is. -/
theorem resetMoveResets : Obligations.ResetMoveResets := by
  unfold Obligations.ResetMoveResets
  intro s rest hmoves
  refine ⟨{ s with moves := rest }.atReset, (step_of_moves hmoves).trans (hostMove_reset rest s), ?_⟩
  simp [Block.reset_status, transact_of_decode ((decode_eq_ok_clr_iff _).mpr rfl), commandRule_clr]

/-- Settles O34: the step takes the offered word, which the ready block accepts. -/
theorem stepRunsDecodedCommand : Obligations.StepRunsDecodedCommand := by
  unfold Obligations.StepRunsDecodedCommand
  intro s w rest hup hrsp hmoves
  have hstep : step s = execWord w { s with moves := rest } := by rw [step_of_moves hmoves, hostMove_command hup hrsp]
  exact ⟨hstep, fun i hdec => hstep.trans (execWord_of_decode hdec _)⟩

/-- Settles O35: only before the first reset is a move refused, and then every move but a reset. -/
theorem refusedOnlyBeforeFirstReset : Obligations.RefusedOnlyBeforeFirstReset := by
  unfold Obligations.RefusedOnlyBeforeFirstReset
  intro s
  cases hmoves : s.moves with
  | nil =>
    rw [step_of_no_moves hmoves]
    exact ⟨by simp, fun _ => ⟨s, rfl, id⟩⟩
  | cons m rest =>
    rw [step_of_moves hmoves]
    cases hup : s.up with
    | true =>
      obtain ⟨t, ht, htup⟩ := exists_hostMove_next hup m rest
      rw [ht]
      exact ⟨by simp, fun _ => ⟨t, rfl, fun _ => htup⟩⟩
    | false =>
      rw [hostMove_before_reset m rest s hup]
      by_cases hm : m = .reset
      · rw [if_pos hm]
        exact ⟨by simp [hm], fun _ => ⟨_, rfl, fun _ => rfl⟩⟩
      · rw [if_neg hm]
        exact ⟨by simp [hm], by simp [hm]⟩

/-- Settles O36: a waiting response makes the block not ready, and taking it clears the response register alone. -/
theorem responseIsHeldUntilTaken : Obligations.ResponseIsHeldUntilTaken := by
  unfold Obligations.ResponseIsHeldUntilTaken
  intro s r rest hup hrsp
  have hwaits : s.rsp ≠ none := by simp [hrsp]
  refine ⟨fun w hmoves => ?_, fun hmoves => ?_, fun hmoves => ?_⟩
  · rw [step_of_moves hmoves, hostMove_command_waiting hup hwaits]
  · rw [step_of_moves hmoves, hostMove_unheld_waiting hup hwaits]
  · rw [step_of_moves hmoves, hostMove_take hup, State.takeResponse_some { s with moves := rest } r hrsp]
    exact ⟨_, rfl, rfl, rfl, rfl, rfl, rfl⟩

/-- Settles O37: the word that runs is the word drawn. -/
theorem unheldWordRunsSomeWord : Obligations.UnheldWordRunsSomeWord := by
  unfold Obligations.UnheldWordRunsSomeWord
  intro s rest hup hrsp hmoves
  have hstep := (step_of_moves hmoves).trans ((hostMove_unheld hup hrsp rest).trans (execWord_eq_commit _ _))
  exact ⟨_, _, hstep, rfl, rfl, rfl, rfl⟩

/-- Settles O39: two steps send a word and take its response, and the rest of the run starts from the block they leave. -/
theorem hostRunIsFoldOfExec : Obligations.HostRunIsFoldOfExec := by
  unfold Obligations.HostRunIsFoldOfExec
  intro ws
  induction ws with
  | nil =>
    intro s rest _ _ hmoves
    have hmoves : s.moves = rest := hmoves
    subst hmoves
    simp [Host.Core.run, transactAll]
  | cons w ws ih =>
    intro s rest hup hrsp hmoves
    rw [List.length_cons, Nat.mul_succ, run_two_steps hup hrsp hmoves, ih _ rest (by exact hup) (by exact hrsp) rfl]
    simp [transactAll]

/-- Settles O51: a step or an edge that runs a word other than CLR keeps a standing error, and every other one but a reset
leaves the block. -/
theorem everyStepKeepsErrors : Obligations.EveryStepKeepsErrors := by
  unfold Obligations.EveryStepKeepsErrors
  refine ⟨fun s t h herr => ?_, fun p c c' hrst h herr => ?_⟩
  · cases hmoves : s.moves with
    | nil =>
      rw [step_of_no_moves hmoves] at h
      obtain rfl := Host.Outcome.next.inj h
      exact .inl ⟨herr, rfl⟩
    | cons m rest =>
      rw [step_of_moves hmoves] at h
      exact (hostMove_keeps_error h herr).imp_right (.imp (fun hm => ⟨rest, by rw [hm]⟩)
        (fun ⟨w, hw, hready, hm⟩ => ⟨w, rest, hw, hready, hm.imp (fun hm => by rw [hm]) (.imp_left fun hm => by rw [hm])⟩))
  · cases hup : c.machine.up with
    | false =>
      rw [clockEdge_before_reset p c hrst hup] at h
      split at h <;> cases h
      exact .inl ⟨herr, rfl⟩
    | true =>
      obtain ⟨r, hrsp, he⟩ | ⟨hrsp, r, hrun, he⟩ | ⟨hrsp, hidle, hvalid, he⟩ | ⟨hrsp, hidle, -, he⟩ :=
        clockEdge_cases p c hrst hup
      all_goals rw [he] at h
      · obtain rfl := Host.Outcome.next.inj h
        refine .inl ?_
        dsimp only
        split <;> simp [herr]
      · by_cases hw : decode r.word = .ok .clr
        · exact .inr ⟨r.word, hw, .inl ⟨r.left, hrun⟩⟩
        · exact .inl (advanceCommand_keeps_error hw herr h)
      · have hready : cmdReady p c = true := by simp [cmdReady, hrst, hidle, hrsp]
        obtain ⟨hduty, ha⟩ | ⟨hduty, ha⟩ := acceptCommand_cases p c.offer c.machine <;> rw [ha] at h
        · by_cases hw : decode p.cmdData = .ok .clr
          · exact .inr ⟨_, hw, .inr ⟨hready, hvalid, by simp [hduty]⟩⟩
          · exact .inl (advanceCommand_keeps_error hw herr h)
        · by_cases hw : decode (Config.undeterminedWord c.machine.draws) = .ok .clr
          · exact .inr ⟨_, hw, .inr ⟨hready, hvalid, by simp [hduty]⟩⟩
          · exact .inl (advanceCommand_keeps_error (s := { c.machine with draws := c.machine.draws + 1 }) hw herr h)
      · obtain rfl := Host.Outcome.next.inj h
        exact .inl ⟨herr, rfl⟩

end

