-- ==== Sys2Proof/Proofs/CycleRuns.lean ====
section
/-! SUPPORT. The latency of a word, the edges of a command under way, and the monitor of the host's duty
(spec/70_reset_and_hazards.md R209, spec/20_memory.md R60 to R62, R69). -/

namespace Sys2Proof.Machine

theorem latSimple_pos : 1 ≤ Config.latSimple := Nat.le_add_left 1 _

theorem latFpass_pos : 1 ≤ Config.latFpass := Nat.le_add_left 1 _

theorem latIpass_pos : 1 ≤ Config.latIpass := Nat.le_add_left 1 _

theorem latency_illegal {w : Word} {e : DecodeError} (h : decode w = .error e) (b : Block) :
    latency w b = Config.latSimple := by
  simp [latency, h]

/-- A command that makes no pass takes LAT_SIMPLE (R209). -/
theorem latency_simple {w : Word} {i : Instr} (h : decode w = .ok i) (hf : i ≠ .fmul10) (hi : i ≠ .idiv10)
    (hfr : i ≠ .frun) (hir : i ≠ .irun) (b : Block) : latency w b = Config.latSimple := by
  cases i <;> simp_all [latency]

theorem latency_fmul10 {w : Word} (h : decode w = .ok .fmul10) (b : Block) :
    latency w b = if (transact b w).2.err = true then Config.latSimple else Config.latFpass := by
  have herr : (transact b w).2.err = true ↔ b.fcnt = 149#8 := by
    rw [transact_of_decode h, fmul10_err_iff, ← BitVec.toNat_inj]
    rfl
  simp only [latency, h, herr]

theorem latency_idiv10 {w : Word} (h : decode w = .ok .idiv10) (b : Block) :
    latency w b = if (transact b w).2.err = true then Config.latSimple else Config.latIpass := by
  have herr : (transact b w).2.err = true ↔ b.icnt = 39#6 := by
    rw [transact_of_decode h, idiv10_err_iff, ← BitVec.toNat_inj]
    rfl
  simp only [latency, h, herr]

/-- How FRUN ends, with its latency: n passes, and one simple latency more if it errs (R209). -/
theorem latency_frun {w : Word} (h : decode w = .ok .frun) {b : Block} {need : Nat}
    (hneed : fracPassesNeeded b.fracValue need) : ∃ n z, afterPasses fracPass n b = .ok z ∧
      ((n = need ∧ transact b w = z.respond z.status ∧ latency w b = n * Config.latFpass) ∨
       (n < need ∧ z.fcnt.toNat = 149 ∧ transact b w = z.raiseError .fovf ∧
         latency w b = n * Config.latFpass + Config.latSimple)) := by
  obtain ⟨n, z, hn, hend⟩ := fracPass_laws.run_cases (firstZero_of_fracPassesNeeded b.fracValue_lt hneed)
  obtain ⟨ds, hlen, hrun⟩ := exists_fracRun hn
  have hdiff : z.fdig.length - b.fdig.length = n := by rw [hrun.fdig_eq, List.length_append]; omega
  have hlat : latency w b =
      runLatency Config.latFpass ((fracLoop b).1.fdig.length - b.fdig.length) (fracLoop b).2.isSome := by
    simp only [latency, h]
  refine ⟨n, z, hn, hend.imp (fun ⟨he, _, hloop⟩ => ?_) (fun ⟨hlt, hfull, hloop⟩ => ?_)⟩
  · have hloop : fracLoop b = (z, none) := hloop
    refine ⟨he, (transact_of_decode h b).trans (finish_of_none hloop), ?_⟩
    rw [hlat, hloop, hdiff]
    rfl
  · have hloop : fracLoop b = (z, some .fovf) := hloop
    refine ⟨hlt, hfull, (transact_of_decode h b).trans (finish_of_some hloop), ?_⟩
    rw [hlat, hloop, hdiff]
    rfl

/-- How IRUN ends, with its latency: n passes, and one simple latency more if it errs (R209). -/
theorem latency_irun {w : Word} (h : decode w = .ok .irun) {b : Block} {need : Nat}
    (hneed : intPassesNeeded b.intValue need) : ∃ n z, afterPasses intPass n b = .ok z ∧
      ((n = need ∧ transact b w = z.respond z.status ∧ latency w b = n * Config.latIpass) ∨
       (n < need ∧ z.icnt.toNat = 39 ∧ transact b w = z.raiseError .iovf ∧
         latency w b = n * Config.latIpass + Config.latSimple)) := by
  obtain ⟨n, z, hn, hend⟩ := intPass_laws.run_cases (firstZero_of_intPassesNeeded hneed)
  obtain ⟨ds, hlen, hrun⟩ := exists_intRun hn
  have hdiff : z.idig.length - b.idig.length = n := by rw [hrun.idig_eq, List.length_append]; omega
  have hlat : latency w b =
      runLatency Config.latIpass ((intLoop b).1.idig.length - b.idig.length) (intLoop b).2.isSome := by
    simp only [latency, h]
  refine ⟨n, z, hn, hend.imp (fun ⟨he, _, hloop⟩ => ?_) (fun ⟨hlt, hfull, hloop⟩ => ?_)⟩
  · have hloop : intLoop b = (z, none) := hloop
    refine ⟨he, (transact_of_decode h b).trans (finish_of_none hloop), ?_⟩
    rw [hlat, hloop, hdiff]
    rfl
  · have hloop : intLoop b = (z, some .iovf) := hloop
    refine ⟨hlt, hfull, (transact_of_decode h b).trans (finish_of_some hloop), ?_⟩
    rw [hlat, hloop, hdiff]
    rfl

/-- FRUN takes at least one cycle; under the invariant at most 149 passes and one simple latency, and from an empty store
no simple latency (R137, R209). -/
theorem latency_frun_bounds {w : Word} (h : decode w = .ok .frun) {b : Block} (hb : b.Inv) :
    1 ≤ latency w b ∧ latency w b ≤ 149 * Config.latFpass + Config.latSimple ∧
      (b.fcnt = 0#8 → latency w b ≤ 149 * Config.latFpass) := by
  obtain ⟨need, -, hneed⟩ := exists_fracPassesNeeded b.fracValue
  obtain ⟨n, z, hn, hend⟩ := latency_frun h hneed
  have hcount := fracPass_laws.afterPasses_count hn hb.fcnt_le
  have hle : n * Config.latFpass ≤ 149 * Config.latFpass := Nat.mul_le_mul_right _ (by omega)
  obtain ⟨rfl, -, hlat⟩ | ⟨hlt, hfull, -, hlat⟩ := hend
  · have hpos := (firstZero_of_fracPassesNeeded b.fracValue_lt hneed).pos
    have hone : 1 ≤ n * Config.latFpass := Nat.mul_pos hpos latFpass_pos
    exact ⟨by omega, by omega, fun _ => by omega⟩
  · have hsimple := latSimple_pos
    refine ⟨by omega, by omega, fun hempty => ?_⟩
    have hdue := fracPassesNeeded_le (b.fracValue_low.trans hb.low_bits) hneed
    simp only [hempty, BitVec.toNat_ofNat] at hcount
    omega

/-- IRUN takes at least one cycle; under the invariant at most 39 passes and one simple latency, and from an empty store
no simple latency (R138, R209). -/
theorem latency_irun_bounds {w : Word} (h : decode w = .ok .irun) {b : Block} (hb : b.Inv) :
    1 ≤ latency w b ∧ latency w b ≤ 39 * Config.latIpass + Config.latSimple ∧
      (b.icnt = 0#6 → latency w b ≤ 39 * Config.latIpass) := by
  obtain ⟨need, hneed⟩ := exists_intPassesNeeded b.intValue
  obtain ⟨n, z, hn, hend⟩ := latency_irun h hneed
  have hcount := intPass_laws.afterPasses_count hn hb.icnt_le
  have hle : n * Config.latIpass ≤ 39 * Config.latIpass := Nat.mul_le_mul_right _ (by omega)
  obtain ⟨rfl, -, hlat⟩ | ⟨hlt, hfull, -, hlat⟩ := hend
  · have hpos := (firstZero_of_intPassesNeeded hneed).pos
    have hone : 1 ≤ n * Config.latIpass := Nat.mul_pos hpos latIpass_pos
    exact ⟨by omega, by omega, fun _ => by omega⟩
  · have hsimple := latSimple_pos
    refine ⟨by omega, by omega, fun hempty => ?_⟩
    have hdue := intPassesNeeded_le b.intValue_lt hneed
    simp only [hempty, BitVec.toNat_ofNat] at hcount
    omega

/-- A word that is no run takes one of the three latencies. -/
theorem latency_pos_of_no_run {w : Word} (hf : decode w ≠ .ok .frun) (hi : decode w ≠ .ok .irun) (b : Block) :
    1 ≤ latency w b := by
  cases hdec : decode w with
  | error e => exact latency_illegal hdec b ▸ latSimple_pos
  | ok i =>
    by_cases hfmul : i = .fmul10
    · subst hfmul
      rw [latency_fmul10 hdec]
      split
      · exact latSimple_pos
      · exact latFpass_pos
    · by_cases hidiv : i = .idiv10
      · subst hidiv
        rw [latency_idiv10 hdec]
        split
        · exact latSimple_pos
        · exact latIpass_pos
      · rw [latency_simple hdec hfmul hidiv (by rintro rfl; exact hf hdec) (by rintro rfl; exact hi hdec)]
        exact latSimple_pos

theorem clockEdges_cons {p : Pins} {c c' : CycleState} (h : clockEdge p c = .next c') (ps : List Pins) :
    clockEdges (p :: ps) c = clockEdges ps c' := by
  simp only [clockEdges, h]

/-- The edges of a command under way, whatever the pins but rst_n do: it stands with one edge less to go after each, and
ends at the last (R60, R61). -/
theorem clockEdges_advance {w : Word} {s : State} (hup : s.up = true) (hrsp : s.rsp = none) {ps : List Pins}
    (hps : ∀ q ∈ ps, q.rstN = true) {left : Nat} (hleft : ps.length + 1 ≤ left) {o : Offer} {p : Pins} {c : CycleState}
    (hedge : clockEdge p c = advanceCommand w left o s) :
    ∃ c', clockEdges (p :: ps) c = .next c' ∧
      (ps.length + 1 < left → c'.machine = s ∧ c'.running ≠ none) ∧
      (ps.length + 1 = left → c'.machine = s.commit (transact s.block w) ∧ c'.running = none) := by
  induction ps generalizing left o p c with
  | nil =>
    obtain ⟨hle, he⟩ | ⟨hlt, he⟩ := advanceCommand_cases w left o s <;> rw [he] at hedge
    · exact ⟨_, clockEdges_cons hedge [], fun h => absurd hle (not_le.mpr h), fun _ => ⟨rfl, rfl⟩⟩
    · exact ⟨_, clockEdges_cons hedge [], fun _ => ⟨rfl, by simp⟩, fun h => absurd hlt (by rw [← h]; simp)⟩
  | cons q qs ih =>
    obtain ⟨hq, hqs⟩ := List.forall_mem_cons.mp hps
    rw [List.length_cons] at hleft ⊢
    obtain ⟨hle, -⟩ | ⟨hlt, he⟩ := advanceCommand_cases w left o s
    · omega
    · have hnext := clockEdge_running q ⟨s, some ⟨w, left - 1⟩, o⟩ ⟨w, left - 1⟩ hq hup hrsp rfl
      obtain ⟨c', hc', hrunning, hended⟩ := ih hqs (left := left - 1) (by omega) hnext
      exact ⟨c', (clockEdges_cons (hedge.trans he) _).trans hc', fun h => hrunning (by omega), fun h => hended (by omega)⟩

/-- An edge that starts word w in a machine with this block runs w (R60, R61, R63). -/
theorem runsWord_of_accept {w : Word} {p : Pins} {c : CycleState} {o : Offer} {s : State} (hup : s.up = true)
    (hrsp : s.rsp = none) (hblock : s.block = c.machine.block) (hmoves : s.moves = c.machine.moves)
    (hedge : clockEdge p c = advanceCommand w (latency w c.machine.block) o s) : RunsWord w p c := by
  intro ps hps hlen
  obtain ⟨c', hc', hrunning, hended⟩ := clockEdges_advance hup hrsp hps hlen hedge
  rw [← hblock, ← hmoves] at *
  refine ⟨c', hc', ?_, fun hlt => ?_, fun heq => ?_⟩
  · obtain hlt | heq := Nat.lt_or_eq_of_le hlen
    · rw [(hrunning hlt).1]
    · rw [(hended heq).1, State.commit_moves]
  · obtain ⟨hmachine, hrun⟩ := hrunning hlt
    rw [hmachine]
    exact ⟨hrsp, rfl, fun q => by simp [cmdReady, hrun]⟩
  · obtain ⟨hmachine, hrun⟩ := hended heq
    rw [hmachine]
    exact ⟨hrun, rfl, rfl⟩

theorem cmdReady_of_idle {p : Pins} {c : CycleState} (hrst : p.rstN = true) (hrun : c.running = none)
    (hrsp : c.machine.rsp = none) : cmdReady p c = true := by
  simp [cmdReady, hrst, hrun, hrsp]

/-- Nothing is offered after an edge exactly when nothing was before and the edge offers nothing (R69). -/
theorem nextOffer_eq_idle_iff (p : Pins) (o : Offer) : nextOffer p o = .idle ↔ o = .idle ∧ p.cmdValid = false := by
  cases o with
  | idle => rw [nextOffer_idle]; cases p.cmdValid <;> simp
  | held w => rw [nextOffer_held]; split <;> simp
  | broken => simp

/-- Word w is held after an edge exactly when the edge offers it, as a first offer or one held before (R69). -/
theorem nextOffer_eq_held_iff (p : Pins) (o : Offer) (w : Word) :
    nextOffer p o = .held w ↔ (p.cmdValid = true ∧ p.cmdData = w) ∧ (o = .idle ∨ o = .held w) := by
  cases o with
  | idle => rw [nextOffer_idle]; cases p.cmdValid <;> simp
  | held v =>
    rw [nextOffer_held]
    split
    next h =>
      obtain ⟨hvalid, rfl⟩ : p.cmdValid = true ∧ p.cmdData = v := by simpa using h
      simp [hvalid]
    next h =>
      have hnot : ¬ (p.cmdValid = true ∧ p.cmdData = v) := by simpa using h
      simp only [reduceCtorEq, false_or, false_iff, Offer.held.injEq]
      rintro ⟨hoffered, rfl⟩
      exact hnot hoffered
  | broken => simp

/-- The monitor after a list of edges at which nothing is accepted, from no offer. -/
def offerAfter (ps : List Pins) : Offer := ps.foldl (fun o p => nextOffer p o) .idle

theorem offerAfter_concat (ps : List Pins) (p : Pins) : offerAfter (ps ++ [p]) = nextOffer p (offerAfter ps) := by
  simp [offerAfter, List.foldl_append]

/-- Nothing is offered after the edges exactly when no edge offered anything (R69). -/
theorem offerAfter_eq_idle_iff (ps : List Pins) : offerAfter ps = .idle ↔ ∀ p ∈ ps, p.cmdValid = false := by
  induction ps using List.reverseRecOn with
  | nil => simp [offerAfter]
  | append_singleton ps p ih =>
    rw [offerAfter_concat, nextOffer_eq_idle_iff, ih]
    simp [or_imp, forall_and]

/-- The host has offered w at every edge since its first, at one edge or more, and nothing before. -/
def HeldSince (w : Word) (ps : List Pins) : Prop :=
  ∃ before offered : List Pins, ps = before ++ offered ∧ offered ≠ [] ∧ (∀ p ∈ before, p.cmdValid = false) ∧
    ∀ p ∈ offered, p.cmdValid = true ∧ p.cmdData = w

/-- Holding w up to and at an edge is offering it there, for the first time or again. -/
theorem heldSince_concat_iff (w : Word) (ps : List Pins) (p : Pins) :
    HeldSince w (ps ++ [p]) ↔
      (p.cmdValid = true ∧ p.cmdData = w) ∧ ((∀ q ∈ ps, q.cmdValid = false) ∨ HeldSince w ps) := by
  constructor
  · rintro ⟨before, offered, heq, hne, hbefore, hoffered⟩
    obtain ⟨init, last, rfl⟩ := (List.eq_nil_or_concat' offered).resolve_left hne
    rw [← List.append_assoc] at heq
    obtain ⟨rfl, hlast⟩ := List.append_inj' heq rfl
    obtain rfl : p = last := by simpa using hlast
    refine ⟨hoffered p (by simp), ?_⟩
    by_cases hinit : init = []
    · exact .inl (by simpa [hinit] using hbefore)
    · exact .inr ⟨before, init, rfl, hinit, hbefore, fun q hq => hoffered q (by simp [hq])⟩
  · rintro ⟨hp, hidle | ⟨before, offered, rfl, hne, hbefore, hoffered⟩⟩
    · exact ⟨ps, [p], rfl, by simp, hidle, by simpa using hp⟩
    · refine ⟨before, offered ++ [p], List.append_assoc .., by simp, hbefore, ?_⟩
      simpa [or_imp, forall_and] using ⟨⟨fun q hq => (hoffered q hq).1, hp.1⟩, fun q hq => (hoffered q hq).2, hp.2⟩

/-- Word w is held after the edges exactly when it was offered from some edge on, and nothing before (R69). -/
theorem offerAfter_eq_held_iff (ps : List Pins) (w : Word) : offerAfter ps = .held w ↔ HeldSince w ps := by
  induction ps using List.reverseRecOn with
  | nil => simp [offerAfter, HeldSince]
  | append_singleton ps p ih =>
    rw [offerAfter_concat, nextOffer_eq_held_iff, heldSince_concat_iff, ih, offerAfter_eq_idle_iff]

theorem advanceCommand_offer {w : Word} {left : Nat} {o : Offer} {s : State} {c : CycleState}
    (h : advanceCommand w left o s = .next c) : c.offer = o := by
  obtain ⟨-, he⟩ | ⟨-, he⟩ := advanceCommand_cases w left o s <;> rw [he] at h <;> obtain rfl := Host.Outcome.next.inj h
  · rfl
  · rfl

theorem acceptCommand_offer {p : Pins} {o : Offer} {s : State} {c : CycleState}
    (h : acceptCommand p o s = .next c) : c.offer = .idle := by
  obtain ⟨-, ha⟩ | ⟨-, ha⟩ := acceptCommand_cases p o s <;> rw [ha] at h
  · exact advanceCommand_offer h
  · exact advanceCommand_offer h

/-- The monitor at an edge with rst_n = 1 of a block that has been reset: an accepting edge ends the offer (R69). -/
theorem clockEdge_offer {p : Pins} {c c' : CycleState} (hrst : p.rstN = true) (hup : c.machine.up = true)
    (h : clockEdge p c = .next c') :
    c'.offer = if cmdReady p c = true ∧ p.cmdValid = true then .idle else nextOffer p c.offer := by
  obtain ⟨r, hrsp, he⟩ | ⟨hrsp, r, hrun, he⟩ | ⟨hrsp, hidle, hvalid, he⟩ | ⟨hrsp, hidle, hvalid, he⟩ :=
    clockEdge_cases p c hrst hup
  all_goals rw [he] at h
  · obtain rfl := Host.Outcome.next.inj h
    simp [cmdReady, hrsp]
  · rw [advanceCommand_offer h]
    simp [cmdReady, hrun]
  · rw [acceptCommand_offer h, if_pos ⟨cmdReady_of_idle hrst hidle hrsp, hvalid⟩]
  · obtain rfl := Host.Outcome.next.inj h
    simp [hvalid]

end Sys2Proof.Machine

open Sys2Proof Sys2Proof.Machine

/-- Settles O40: every latency is one of the positive parameters or a positive number of passes, and a legal count leaves
room for few. -/
theorem latencyBounds : Obligations.LatencyBounds := by
  unfold Obligations.LatencyBounds
  intro w b hb
  have hfrun := fun h => latency_frun_bounds (w := w) h hb
  have hirun := fun h => latency_irun_bounds (w := w) h hb
  refine ⟨?_, fun h => (hfrun h).2.1, fun h => (hirun h).2.1, fun h => (hfrun h).2.2, fun h => (hirun h).2.2⟩
  by_cases hf : decode w = .ok .frun
  · exact (hfrun hf).1
  · by_cases hi : decode w = .ok .irun
    · exact (hirun hi).1
    · exact latency_pos_of_no_run hf hi b

/-- Settles O52: each row is the latency of a word by its command, and of a run by its passes and its end. -/
theorem latencyRows : Obligations.LatencyRows := by
  unfold Obligations.LatencyRows
  intro w b
  refine ⟨fun e h => latency_illegal h b, fun i h hf hi hfr hir => latency_simple h hf hi hfr hir b,
    fun herr hf hi => ?_, fun h hok => by simp [latency_fmul10 h, hok], fun h hok => by simp [latency_idiv10 h, hok],
    fun h => ?_, fun h => ?_⟩
  · cases hdec : decode w with
    | error e => exact latency_illegal hdec b
    | ok i =>
      by_cases hfmul : i = .fmul10
      · rw [latency_fmul10 (hfmul ▸ hdec), if_pos herr]
      · by_cases hidiv : i = .idiv10
        · rw [latency_idiv10 (hidiv ▸ hdec), if_pos herr]
        · exact latency_simple hdec hfmul hidiv (by rintro rfl; exact hf hdec) (by rintro rfl; exact hi hdec) b
  · obtain ⟨need, -, hneed⟩ := exists_fracPassesNeeded b.fracValue
    obtain ⟨n, z, hn, ⟨-, hrule, hlat⟩ | ⟨-, -, hrule, hlat⟩⟩ := latency_frun h hneed
    · exact ⟨n, z, hn, .inl ⟨by rw [hrule]; rfl, by rw [hrule]; rfl, hlat⟩⟩
    · exact ⟨n, z, hn, .inr ⟨by rw [hrule]; rfl, by rw [hrule]; rfl, hlat⟩⟩
  · obtain ⟨need, hneed⟩ := exists_intPassesNeeded b.intValue
    obtain ⟨n, z, hn, ⟨-, hrule, hlat⟩ | ⟨-, -, hrule, hlat⟩⟩ := latency_irun h hneed
    · exact ⟨n, z, hn, .inl ⟨by rw [hrule]; rfl, by rw [hrule]; rfl, hlat⟩⟩
    · exact ⟨n, z, hn, .inr ⟨by rw [hrule]; rfl, by rw [hrule]; rfl, hlat⟩⟩

/-- Settles O41: the edge accepts the offered word, whose execution the further edges carry to its end. -/
theorem cycleLevelRefinesExec : Obligations.CycleLevelRefinesExec := by
  unfold Obligations.CycleLevelRefinesExec
  rintro c w p hup hrun hrsp hrst hvalid rfl hduty
  refine ⟨cmdReady_of_idle hrst hrun hrsp, ?_⟩
  obtain ⟨-, ha⟩ | ⟨hbroken, -⟩ := acceptCommand_cases p c.offer c.machine
  · exact runsWord_of_accept hup hrsp rfl rfl ((clockEdge_accepting p c hrst hup hrsp hrun hvalid).trans ha)
  · simp [hduty] at hbroken

/-- Settles O53: the edge accepts the word drawn, and runs it as it would a held one. -/
theorem brokenDutyRunsSomeWord : Obligations.BrokenDutyRunsSomeWord := by
  unfold Obligations.BrokenDutyRunsSomeWord
  intro c p hup hrun hrsp hrst hvalid hduty
  refine ⟨cmdReady_of_idle hrst hrun hrsp, Config.undeterminedWord c.machine.draws, ?_⟩
  obtain ⟨hkept, -⟩ | ⟨-, ha⟩ := acceptCommand_cases p c.offer c.machine
  · simp [hduty] at hkept
  · exact runsWord_of_accept (s := { c.machine with draws := c.machine.draws + 1 }) hup hrsp rfl rfl
      ((clockEdge_accepting p c hrst hup hrsp hrun hvalid).trans ha)

/-- Settles O43: the waiting edge changes the response register alone, and only when the host takes the response. -/
theorem cycleResponseHandshake : Obligations.CycleResponseHandshake := by
  unfold Obligations.CycleResponseHandshake
  intro p c r hrst hup hrsp
  refine ⟨by simp [cmdReady, hrsp], _, clockEdge_waiting p c r hrst hup hrsp, ?_⟩
  cases p.rspReady with
  | false => exact ⟨rfl, rfl, fun _ => hrsp, nofun⟩
  | true =>
    rw [if_pos rfl, State.takeResponse_some c.machine r hrsp]
    exact ⟨rfl, rfl, nofun, fun _ => ⟨rfl, rfl⟩⟩

/-- Settles O55: an idle edge moves only the monitor, which plays no part in readiness. -/
theorem idleKeepsTheState : Obligations.IdleKeepsTheState := by
  unfold Obligations.IdleKeepsTheState
  refine ⟨fun s => step_of_no_moves, fun p c hrst hvalid hup hrun hrsp => ?_⟩
  exact ⟨_, clockEdge_idle p c hrst hup hrsp hrun hvalid, rfl, hrun, fun q hq => cmdReady_of_idle hq hrun hrsp⟩

/-- Settles O56: rst_n = 0 forces the outputs, and after a reset edge the sequencer is idle with no response. -/
theorem resetEdgeOutputs : Obligations.ResetEdgeOutputs := by
  unfold Obligations.ResetEdgeOutputs
  intro p c hrst
  refine ⟨by simp [outputs, hrst], _, clockEdge_reset p c hrst, fun q hq => ?_⟩
  simp [outputs, hq, cmdReady]

/-- Settles O54: the monitor's two questions are answered edge by edge, from the last one back. -/
theorem dutyMonitorFollowsTheOffer : Obligations.DutyMonitorFollowsTheOffer := by
  unfold Obligations.DutyMonitorFollowsTheOffer
  refine ⟨fun ps => ⟨offerAfter_eq_idle_iff ps, offerAfter_eq_held_iff ps⟩, fun p c c' h => ?_⟩
  cases hrst : p.rstN with
  | false =>
    rw [clockEdge_reset p c hrst] at h
    obtain rfl := Host.Outcome.next.inj h
    rfl
  | true =>
    cases hup : c.machine.up with
    | false =>
      rw [clockEdge_before_reset p c hrst hup] at h
      split at h <;> cases h
      rfl
    | true => exact clockEdge_offer hrst hup h

end

