-- ==== Sys2Proof/Proofs/Positions.lean ====
section
/-! SUPPORT. The positions of a finite pattern and their sum (spec/30_encoding.md R93 to R97). -/

namespace Sys2Proof.Machine

theorem floatExponent_lt (b : Word) : floatExponent b < 2 ^ 8 := Nat.mod_lt _ (by decide)

theorem floatMantissa_lt (b : Word) : floatMantissa b < 2 ^ 23 := Nat.mod_lt _ (by decide)

/-- A finite pattern's exponent field is at most 254 (R93, R94). -/
theorem floatExponent_le {b : Word} (h : floatFinite b = true) : floatExponent b ≤ 254 := by
  have hlt := floatExponent_lt b
  have hne : floatExponent b ≠ 0xFF := by simpa [floatFinite] using h
  omega

/-- The scan of n mantissa bits from x down gives positions in x - n + 1 to x. -/
theorem scanMantissa_range {m n : Nat} {x p : Int} (h : p ∈ scanMantissa m n x) : x - n < p ∧ p ≤ x := by
  induction n generalizing x with
  | zero => simp [scanMantissa] at h
  | succ n ih =>
    rw [scanMantissa] at h
    split at h
    · obtain rfl | hrest := List.mem_cons.mp h
      · omega
      · have hp := ih hrest
        omega
    · have hp := ih h
      omega

theorem scanMantissa_pairwise (m n : Nat) (x : Int) : (scanMantissa m n x).Pairwise (· > ·) := by
  induction n generalizing x with
  | zero => exact .nil
  | succ n ih =>
    rw [scanMantissa]
    split
    · refine List.pairwise_cons.mpr ⟨fun p hp => ?_, ih (x - 1)⟩
      have hrange := scanMantissa_range hp
      omega
    · exact ih (x - 1)

theorem scanMantissa_length_le (m n : Nat) (x : Int) : (scanMantissa m n x).length ≤ n := by
  induction n generalizing x with
  | zero => exact Nat.le_refl 0
  | succ n ih =>
    rw [scanMantissa]
    split
    · exact Nat.succ_le_succ (ih (x - 1))
    · exact (ih (x - 1)).trans (Nat.le_succ n)

/-- The positions of a Normal: its exponent, then the mantissa bits below it (R94). -/
theorem floatPositions_normal {b : Word} (h : floatExponent b ≠ 0) :
    floatPositions b = (floatExponent b : Int) :: scanMantissa (floatMantissa b) 23 (floatExponent b - 1) := by
  simp [floatPositions, h]

/-- The positions of a Zero or Subnormal: the mantissa bits from position 0 down (R94). -/
theorem floatPositions_subnormal {b : Word} (h : floatExponent b = 0) :
    floatPositions b = scanMantissa (floatMantissa b) 23 0 := by
  simp [floatPositions, h]

theorem floatPositions_pairwise (b : Word) : (floatPositions b).Pairwise (· > ·) := by
  by_cases h : floatExponent b = 0
  · rw [floatPositions_subnormal h]
    exact scanMantissa_pairwise ..
  · rw [floatPositions_normal h]
    refine List.pairwise_cons.mpr ⟨fun p hp => ?_, scanMantissa_pairwise ..⟩
    have hrange := scanMantissa_range hp
    omega

theorem floatPositions_length_le (b : Word) : (floatPositions b).length ≤ 24 := by
  by_cases h : floatExponent b = 0
  · rw [floatPositions_subnormal h]
    exact (scanMantissa_length_le ..).trans (by decide)
  · rw [floatPositions_normal h]
    exact Nat.succ_le_succ (scanMantissa_length_le ..)

theorem floatPositions_normal_range {b : Word} (h : floatExponent b ≠ 0) {p : Int} (hp : p ∈ floatPositions b) :
    (floatExponent b : Int) - 23 ≤ p ∧ p ≤ floatExponent b := by
  rw [floatPositions_normal h] at hp
  obtain rfl | hp := List.mem_cons.mp hp
  · omega
  · have hrange := scanMantissa_range hp
    omega

theorem floatPositions_subnormal_range {b : Word} (h : floatExponent b = 0) {p : Int} (hp : p ∈ floatPositions b) :
    -22 ≤ p ∧ p ≤ 0 := by
  rw [floatPositions_subnormal h] at hp
  have hrange := scanMantissa_range hp
  omega

/-- Every position of a finite pattern is legal (R96). -/
theorem floatPositions_legal {b : Word} (h : floatFinite b = true) {p : Int} (hp : p ∈ floatPositions b) :
    -22 ≤ p ∧ p ≤ 254 := by
  have hle := floatExponent_le h
  by_cases h0 : floatExponent b = 0
  · have hrange := floatPositions_subnormal_range h0 hp
    omega
  · have hrange := floatPositions_normal_range h0 hp
    omega

/-- The scanned bits of m, weighted by their positions, are the low n bits of m at the weight of the last one (R94,
R97). -/
theorem scanMantissa_sum {m n : Nat} {x : Int} (hx : (n : Int) ≤ x + 34) :
    ((scanMantissa m n x).map fun q => 2 ^ (q + 33).toNat).sum = m % 2 ^ n * 2 ^ (x + 34 - n).toNat := by
  induction n generalizing x with
  | zero => simp [scanMantissa, Nat.mod_one]
  | succ n ih =>
    have hrest := ih (x := x - 1) (by omega)
    have hweight : (x - 1 + 34 - n).toNat = (x + 34 - (n + 1 : Nat)).toNat := by omega
    rw [hweight] at hrest
    have hbit : bits m n n = m / 2 ^ n % 2 := by simp [bits]
    have hsplit : m % 2 ^ (n + 1) = m % 2 ^ n + 2 ^ n * bits m n n := by rw [hbit, Nat.mod_pow_succ]
    have hlead : 2 ^ n * 2 ^ (x + 34 - (n + 1 : Nat)).toNat = 2 ^ (x + 33).toNat := by
      rw [← pow_add]
      congr 1
      omega
    rw [scanMantissa, hsplit]
    split
    next h => rw [List.map_cons, List.sum_cons, hrest, h, Nat.mul_one, Nat.add_mul, hlead, Nat.add_comm]
    next h =>
      have h0 : bits m n n = 0 := by omega
      rw [hrest, h0]
      simp

/-- The bits at the positions of a pattern sum to |value(b)|·2^160 (R24, R94, R97). -/
theorem floatPositions_sum (b : Word) :
    (((floatPositions b).map fun q => 2 ^ (q + 33).toNat).sum : ℕ) = floatMagnitude b * 2 ^ 160 := by
  have hm : floatMantissa b % 2 ^ 23 = floatMantissa b := Nat.mod_eq_of_lt (floatMantissa_lt b)
  by_cases h : floatExponent b = 0
  · rw [floatPositions_subnormal h, scanMantissa_sum (by decide), hm, floatMagnitude, if_pos h]
    have hweight : ((0 : Int) + 34 - (23 : Nat)).toNat = 11 := rfl
    rw [hweight, zpow_neg]
    push_cast
    norm_num
    ring
  · rw [floatPositions_normal h, List.map_cons, List.sum_cons, scanMantissa_sum (by omega), hm, floatMagnitude, if_neg h]
    have hlead : ((floatExponent b : Int) + 33).toNat = floatExponent b + 33 := by omega
    have hrest : ((floatExponent b : Int) - 1 + 34 - (23 : Nat)).toNat = floatExponent b + 10 := by omega
    rw [hlead, hrest, zpow_sub₀ two_ne_zero, zpow_natCast]
    push_cast
    rw [pow_add, pow_add]
    norm_num
    ring

/-- Positions of a pattern are distinct, so the sum over their set is the sum over their list. -/
theorem floatPositions_sum_toFinset (b : Word) :
    ∑ q ∈ (floatPositions b).toFinset, 2 ^ (q + 33).toNat = ((floatPositions b).map fun q => 2 ^ (q + 33).toNat).sum :=
  List.sum_toFinset _ ((floatPositions_pairwise b).imp fun h => (ne_of_gt h))

/-- LOADF from any block: V is the magnitude at weight 2^160, every other field is at its reset value, and no command
errs (R24, R92). -/
theorem transactAll_loadf {b : Word} (h : floatFinite b = true) (start : Block) :
    let r := transactAll start (sendWords (.clr :: (floatPositions b).map .setbit))
    (r.1.accValue : ℚ) = floatMagnitude b * 2 ^ 160 ∧ r.1 = { Block.reset with w := r.1.w } ∧
      ∀ x ∈ r.2, x.err = false := by
  obtain ⟨hsum, hframe, hok⟩ := transactAll_clr_setbits start (floatPositions b) fun p => floatPositions_legal h
  refine ⟨?_, hframe, hok⟩
  rw [hsum, floatPositions_sum_toFinset, floatPositions_sum]

theorem loadf_eq_ok {b : Word} (h : floatFinite b = true) : loadf b = .ok (.clr :: (floatPositions b).map .setbit) := by
  simp [loadf, h]

end Sys2Proof.Machine

open Sys2Proof Sys2Proof.Machine

/-- Settles O44: the scan goes down from its first position, one bit a step. -/
theorem positionsInRange : Obligations.PositionsInRange := by
  unfold Obligations.PositionsInRange
  intro b h
  refine ⟨fun p => floatPositions_legal h, floatPositions_pairwise b, floatPositions_length_le b, fun h0 => ⟨?_, ?_⟩,
    fun h0 p hp => (floatPositions_subnormal_range h0 hp).2, fun p hp s => ?_⟩
  · rw [floatPositions_normal h0]
    rfl
  · exact fun p => floatPositions_normal_range h0
  · obtain ⟨j, -, hrule⟩ := commandRule_setbit (floatPositions_legal h hp) s.block
    exact ⟨_, _, (succeeds_iff ..).mpr hrule⟩

/-- Settles O45: by the scaler law V is the sum of the bits at the pattern's positions, which is its magnitude. -/
theorem loadfLoadsMagnitude : Obligations.LoadfLoadsMagnitude := by
  unfold Obligations.LoadfLoadsMagnitude
  intro b start is h hload
  rw [loadf_eq_ok h] at hload
  obtain rfl := Except.ok.inj hload
  obtain ⟨hvalue, -, hok⟩ := transactAll_loadf h start
  exact ⟨hvalue, hok⟩

end

