-- ==== Sys2Proof/Proofs/Conversion.lean ====
section
/-! SUPPORT. CONVERT command by command, and its text as the digits the two runs stored (spec/30_encoding.md R92,
spec/43_readout.md R153 to R156). -/

namespace Sys2Proof.Machine

theorem transactAll_append (b : Block) (xs ys : List Word) :
    transactAll b (xs ++ ys) = ((transactAll (transactAll b xs).1 ys).1,
      (transactAll b xs).2 ++ (transactAll (transactAll b xs).1 ys).2) := by
  induction xs generalizing b with
  | nil => rfl
  | cons w ws ih => simp only [List.cons_append, transactAll, ih]

/-- After CLR nothing of the start is left (R121, R156). -/
theorem transactAll_clr (start : Block) (ws : List Word) :
    transactAll start (encode .clr :: ws) =
      ((transactAll Block.reset ws).1, ⟨false, Block.reset.status⟩ :: (transactAll Block.reset ws).2) := by
  have hfirst : transact start (encode .clr) = Block.reset.respond Block.reset.status := transact_encode rfl start
  simp only [transactAll, hfirst, Block.respond_fst, Block.respond_snd]

/-- The commands of CONVERT on a finite pattern (R92). -/
theorem convert_eq_ok {b : Word} (h : floatFinite b = true) :
    convert b = .ok (.clr :: ((floatPositions b).map .setbit ++ extract)) := by
  simp [convert, loadf_eq_ok h]

theorem sendWords_append (is js : List Instr) : sendWords (is ++ js) = sendWords is ++ sendWords js :=
  List.map_append

/-- The block and responses LOADF leaves (R92). -/
def loaded (b : Word) (start : Block) : Block × List Response :=
  transactAll start (sendWords (.clr :: (floatPositions b).map .setbit))

/-- LOADF leaves V = |value(b)|·2^160 in an otherwise reset block, and no error (R24). -/
theorem loaded_spec {b : Word} (h : floatFinite b = true) (start : Block) :
    ((loaded b start).1.accValue : ℚ) = floatMagnitude b * 2 ^ 160 ∧
      (loaded b start).1 = { Block.reset with w := (loaded b start).1.w } ∧ ∀ x ∈ (loaded b start).2, x.err = false := by
  unfold loaded
  exact transactAll_loadf h start

/-- CONVERT on a finite pattern is LOADF, FRUN and IRUN, and then the text of the block they leave (R92, R155). -/
theorem conversion_eq {b : Word} (h : floatFinite b = true) (start : Block) :
    let a := commandRule .frun (loaded b start).1
    let z := commandRule .irun a.1
    conversion b start = (z.1, (loaded b start).2 ++ [a.2, z.2], render (floatSign b) z.1) := by
  have hwords : sendWords (.clr :: ((floatPositions b).map .setbit ++ extract)) =
      sendWords (.clr :: (floatPositions b).map .setbit) ++ [encode .frun, encode .irun] := by
    rw [← List.cons_append, sendWords_append]
    rfl
  have hruns : ∀ x, transactAll x [encode .frun, encode .irun] = ((commandRule .irun (commandRule .frun x).1).1,
      [(commandRule .frun x).2, (commandRule .irun (commandRule .frun x).1).2]) := fun x => by
    simp only [transactAll, transact_encode (i := .frun) rfl, transact_encode (i := .irun) rfl]
  simp only [conversion, convert_eq_ok h, hwords, transactAll_append, hruns, loaded]

/-- The invariant holds after LOADF from any block: the positions set no low bit (R25, R43). -/
theorem loaded_inv {b : Word} (h : floatFinite b = true) (start : Block) : (loaded b start).1.Inv := by
  have hlegal : ∀ p ∈ floatPositions b, -22 ≤ p ∧ p ≤ 254 := fun p => floatPositions_legal h
  obtain ⟨hsum, hframe, -⟩ := transactAll_clr_setbits start (floatPositions b) hlegal
  have hlow : (loaded b start).1.accValue % 2 ^ 11 = 0 := by
    rw [loaded, hsum, ← Nat.dvd_iff_mod_eq_zero]
    refine Finset.dvd_sum fun q hq => Nat.pow_dvd_pow 2 ?_
    have hq := hlegal q (List.mem_toFinset.mp hq)
    omega
  have hw0 : (loaded b start).1.w[0].toNat % 2 ^ 11 = 0 := by
    rw [← Block.fracValue_low, Block.fracValue_eq_mod]
    omega
  rw [show (loaded b start).1 = { Block.reset with w := (loaded b start).1.w } from hframe]
  exact { Block.reset_inv with low_bits := hw0 }

/-- Reading every entry of a list in order gives the list back. -/
theorem map_range_getD {α : Type} (l : List α) (d : α) : (List.range l.length).map (fun k => l.getD k d) = l := by
  apply List.ext_getElem
  · simp
  · intro k h1 h2
    rw [List.getElem_map, List.getElem_range]
    exact List.getD_eq_getElem l d h2

/-- The text of a block whose stores are as long as their counts (R153). -/
theorem render_eq {z : Block} (hf : z.fdig.length = z.fcnt.toNat) (hi : z.idig.length = z.icnt.toNat) (s : Bool) :
    render s z = (if s = true then ['-'] else []) ++ (z.idig.reverse.map fun d => d.toNat).map
      (fun d => Char.ofNat (0x30 + d)) ++ ['.'] ++ (z.fdig.map fun d => d.toNat).map (fun d => Char.ofNat (0x30 + d)) := by
  have hfrac : (List.range z.fcnt.toNat).map (fun k => digitChar (z.readFdig k)) = z.fdig.map digitChar := by
    conv_rhs => rw [← map_range_getD z.fdig 0#4, hf, List.map_map]
    rfl
  have hint : (List.range z.icnt.toNat).map (fun k => digitChar (z.readIdig k)) = z.idig.map digitChar := by
    conv_rhs => rw [← map_range_getD z.idig 0#4, hi, List.map_map]
    rfl
  rw [render, List.map_reverse, hint, hfrac, List.map_map, List.map_map, List.map_reverse]
  rfl

/-- What the two runs of a conversion leave: no error, and exact digits of the magnitude (R139, R155). -/
theorem conversion_exact {b : Word} (h : floatFinite b = true) (start : Block) :
    let l := (loaded b start).1
    let a := commandRule .frun l
    let z := commandRule .irun a.1
    a.2.err = false ∧ z.2.err = false ∧ z.1.Inv ∧ FracExact l z.1 ∧ IntExact l z.1 ∧
      (l.accValue : ℚ) = floatMagnitude b * 2 ^ 160 ∧ ∀ x ∈ (loaded b start).2, x.err = false := by
  intro l a z
  obtain ⟨hvalue, hframe, hok⟩ := loaded_spec h start
  have hl : l = { Block.reset with w := l.w } := hframe
  have hfcnt : l.fcnt = 0#8 := by rw [hl]; rfl
  have hicnt : l.icnt = 0#6 := by rw [hl]; rfl
  have hfdig : l.fdig = [] := by rw [hl]; rfl
  have hidig : l.idig = [] := by rw [hl]; rfl
  have hinv : l.Inv := loaded_inv h start
  obtain ⟨fs, hfrac⟩ := fracCommand_run (.inr rfl) l
  obtain ⟨is, hint⟩ := intCommand_run (.inr rfl) a.1
  have haok : a.2.err = false := by
    obtain ⟨need, -, hneed⟩ := exists_fracPassesNeeded l.fracValue
    have hle := fracPassesNeeded_le (l.fracValue_low.trans hinv.low_bits) hneed
    rw [Bool.eq_false_iff, ne_eq, frun_err_iff hneed hinv.fcnt_le, hfcnt]
    exact not_lt.mpr ((Nat.zero_add need).symm ▸ hle)
  have hzok : z.2.err = false := by
    obtain ⟨need, hneed⟩ := exists_intPassesNeeded a.1.intValue
    have hle := intPassesNeeded_le a.1.intValue_lt hneed
    have hcnt : a.1.icnt = 0#6 := hfrac.icnt_eq.trans hicnt
    rw [Bool.eq_false_iff, ne_eq, irun_err_iff hneed (by simp [hcnt]), hcnt]
    exact not_lt.mpr ((Nat.zero_add need).symm ▸ hle)
  have hF := frun_exact hfcnt hfdig haok
  have hI := irun_exact (hfrac.icnt_eq.trans hicnt) (hfrac.idig_eq.trans hidig) hzok
  exact ⟨haok, hzok, commandRule_inv .irun (commandRule_inv .frun hinv), hF.of_intRun hint, hI.of_fracRun hfrac, hvalue,
    hok⟩

theorem IntExact.idig_ne_nil {a z : Block} (h : IntExact a z) : z.idig ≠ [] := by
  intro hnil
  have hvalue := h.value
  rw [idigValue, hnil, List.foldr_nil] at hvalue
  simp [h.zero hvalue.symm] at hnil

theorem FracExact.fdig_ne_nil {a z : Block} (h : FracExact a z) : z.fdig ≠ [] := by
  intro hnil
  by_cases h0 : a.fracValue = 0
  · simp [h.zero h0] at hnil
  · simpa [hnil] using h.last h0

/-- The integer digits, most significant first, have no leading zero, or are the single digit 0 (R139, R155). -/
theorem IntExact.no_leading_zero {a z : Block} (h : IntExact a z) :
    (z.idig.reverse.map fun d => d.toNat) = [0] ∨ (z.idig.reverse.map fun d => d.toNat).head? ≠ some 0 := by
  by_cases h0 : a.intValue = 0
  · exact .inl (by simp [h.zero h0])
  · refine .inr fun hhead => ?_
    rw [List.head?_map, List.head?_reverse, Option.map_eq_some_iff] at hhead
    obtain ⟨d, hd, hzero⟩ := hhead
    obtain rfl : d = 0#4 := BitVec.eq_of_toNat_eq hzero
    exact h.last h0 hd

/-- The fraction digits end in a nonzero digit, or are the single digit 0 (R139, R155). -/
theorem FracExact.no_trailing_zero {a z : Block} (h : FracExact a z) :
    (z.fdig.map fun d => d.toNat) = [0] ∨ (z.fdig.map fun d => d.toNat).getLast? ≠ some 0 := by
  by_cases h0 : a.fracValue = 0
  · exact .inl (by simp [h.zero h0])
  · exact .inr (by simp [List.getLast?_map, h.last h0])

/-- The integer digits write I (R139). -/
theorem IntExact.ofDigits {a z : Block} (h : IntExact a z) :
    Nat.ofDigits (10 : ℤ) (z.idig.reverse.map fun d => d.toNat).reverse = a.intValue := by
  have hnat : Nat.ofDigits 10 (z.idig.map fun d => d.toNat) = idigValue z := by
    rw [Nat.ofDigits_eq_foldr, List.foldr_map]
    rfl
  rw [List.map_reverse, List.reverse_reverse, ← h.value, ← hnat, Nat.coe_ofDigits, Nat.cast_ofNat]

/-- I and F/2^160 are the integer and fractional parts of V/2^160 (R23). -/
theorem Block.floor_and_fract (b : Block) {x : ℚ} (h : (b.accValue : ℚ) = x * 2 ^ 160) :
    ⌊x⌋ = (b.intValue : ℤ) ∧ Int.fract x = (b.fracValue : ℚ) / 2 ^ 160 := by
  have hx : x = (b.intValue : ℤ) + (b.fracValue : ℚ) / 2 ^ 160 := by
    have hacc : (b.accValue : ℚ) = b.intValue * 2 ^ 160 + b.fracValue := mod_cast b.accValue_eq
    rw [h] at hacc
    push_cast
    linarith
  have hlt : (b.fracValue : ℚ) < 2 ^ 160 := mod_cast b.fracValue_lt
  have hfloor : ⌊x⌋ = (b.intValue : ℤ) := by
    rw [Int.floor_eq_iff, hx]
    have hnonneg : 0 ≤ (b.fracValue : ℚ) / 2 ^ 160 := by positivity
    have hone : (b.fracValue : ℚ) / 2 ^ 160 < 1 := (div_lt_one (by positivity)).mpr hlt
    constructor <;> linarith
  refine ⟨hfloor, ?_⟩
  rw [Int.fract, hfloor, hx]
  ring

end Sys2Proof.Machine

open Sys2Proof Sys2Proof.Machine

/-- Settles O46: LOADF leaves V = |value(b)|·2^160 in an otherwise reset block, the runs store its exact digits, and the
text is those digits. -/
theorem conversionIsExact : Obligations.ConversionIsExact := by
  unfold Obligations.ConversionIsExact
  intro b start h
  obtain ⟨haok, hzok, hinv, hF, hI, hvalue, hok⟩ := conversion_exact h start
  rw [conversion_eq h start]
  generalize (commandRule .irun (commandRule .frun (loaded b start).1).1) = z at *
  obtain ⟨hfloor, hfract⟩ := Block.floor_and_fract _ hvalue
  refine ⟨List.forall_mem_append.mpr ⟨hok, by simp [haok, hzok]⟩, z.1.idig.reverse.map fun d => d.toNat,
    z.1.fdig.map fun d => d.toNat, render_eq hF.length hI.length _, by simpa using hinv.idig_le,
    by simpa using hinv.fdig_le, by simpa [hI.length] using hinv.icnt_le, by simpa [hF.length] using hinv.fcnt_le,
    hI.no_leading_zero, hF.no_trailing_zero, by simpa using hI.idig_ne_nil, by simpa using hF.fdig_ne_nil,
    hI.ofDigits.trans hfloor.symm, ?_⟩
  rw [hfract, ← hF.value, fdigValue, bind_pure_comp, List.map_eq_map, List.foldr_map, List.foldr_map]

/-- Settles O47: CONVERT begins with CLR, after which nothing of the start is left. -/
theorem noHiddenState : Obligations.NoHiddenState := by
  unfold Obligations.NoHiddenState
  intro b start start' h
  have hloaded : loaded b start = loaded b start' := (transactAll_clr start _).trans (transactAll_clr start' _).symm
  rw [conversion_eq h, conversion_eq h, hloaded]

end

