-- ==== Sys2Proof/Proofs/AssemblerText.lean ====
section
/-! SUPPORT. The text the disassembler prints, read back by the assembler (spec/30_encoding.md R90, R91). -/

namespace Sys2Proof.Machine

/-- A decimal digit character lies between '0' and '9'. -/
theorem digit_bounds {c : Char} (h : c.isDigit = true) : '0' ≤ c ∧ c ≤ '9' := by
  simpa [Char.isDigit, Char.le_def] using h

theorem capital_of_isDigit {c : Char} (h : c.isDigit = true) : capital c = c := by
  have hlt : ¬ 'a' ≤ c := fun ha => absurd (ha.trans (digit_bounds h).2) (by decide)
  rw [capital, if_neg fun hc => hlt hc.1]

/-- A digit character's value is its distance from '0', below 10 (R90). -/
theorem digitValue_of_isDigit {c : Char} (h : c.isDigit = true) :
    digitValue c = some (c.toNat - '0'.toNat) ∧ c.toNat - '0'.toNat < 10 := by
  have hle : c.toNat ≤ '9'.toNat := (digit_bounds h).2
  refine ⟨by rw [digitValue, if_pos (digit_bounds h)]; rfl, ?_⟩
  have hnine : '9'.toNat = '0'.toNat + 9 := rfl
  omega

/-- A string of decimal digits reads as the number it writes. -/
theorem readDigits_eq {cs : List Char} (h : ∀ c ∈ cs, c.isDigit = true) (acc : Nat) :
    readDigits 10 acc cs = some (Nat.ofDigitChars 10 cs acc) := by
  induction cs generalizing acc with
  | nil => rw [readDigits, Nat.ofDigitChars_nil]
  | cons c cs ih =>
    obtain ⟨hc, hcs⟩ := List.forall_mem_cons.mp h
    obtain ⟨hvalue, hlt⟩ := digitValue_of_isDigit hc
    rw [readDigits, hvalue, Nat.ofDigitChars_cons, Nat.mul_comm 10 acc]
    dsimp only
    rw [if_pos hlt, ih hcs]

theorem isDigit_of_mem_numberText {n : Nat} {c : Char} (h : c ∈ Nat.toDigits 10 n) : c.isDigit = true :=
  Nat.isDigit_of_mem_toDigits (by decide) (by decide) h

/-- An unsigned decimal is printed as the library's digits: they need no padding and no capital letters (R91). -/
theorem numberText_eq (n : Nat) : numberText 10 1 n = Nat.toDigits 10 n := by
  have hcapital : (Nat.toDigits 10 n).map capital = Nat.toDigits 10 n :=
    (List.map_congr_left fun c hc => capital_of_isDigit (isDigit_of_mem_numberText hc)).trans (List.map_id' _)
  have hpad : 1 - (Nat.toDigits 10 n).length = 0 := Nat.sub_eq_zero_of_le Nat.length_toDigits_pos
  rw [numberText, hcapital, hpad]
  rfl

theorem readNumber_numberText (n : Nat) : readNumber 10 (Nat.toDigits 10 n) = some n := by
  rw [readNumber, readDigits_eq fun c => isDigit_of_mem_numberText, Nat.ofDigitChars_ten_toDigits]
  simp [Nat.toDigits_ne_nil]

/-- A string of digits is a decimal literal: it has no sign and no hex mark (R90). -/
theorem readInteger_of_digits {cs : List Char} (h : ∀ c ∈ cs, c.isDigit = true) :
    readInteger cs = (readNumber 10 cs).map Int.ofNat := by
  unfold readInteger
  split
  · exact absurd (h 'x' (by simp)) (by decide)
  · exact absurd (h 'X' (by simp)) (by decide)
  · exact absurd (h '-' (by simp)) (by decide)
  · rfl

theorem readInteger_numberText (n : Nat) : readInteger (numberText 10 1 n) = some (n : Int) := by
  rw [numberText_eq, readInteger_of_digits fun c => isDigit_of_mem_numberText, readNumber_numberText]
  rfl

/-- A signed decimal reads back as its value (R90, R91). -/
theorem readInteger_signedText (v : Int) : readInteger (signedText v) = some v := by
  unfold signedText
  split
  next hneg =>
    have hread : readInteger ('-' :: Nat.toDigits 10 v.natAbs) = some (-(v.natAbs : Int)) := by
      simp [readInteger, readNumber_numberText]
    rw [numberText_eq, hread]
    congr 1
    omega
  next hpos =>
    rw [readInteger_numberText]
    congr 1
    omega

/-- A character that stays inside its word and its line: no blank, no comment mark, no line end. -/
def isWordChar (c : Char) : Bool := !isBlank c && c != ';' && c != '\n'

theorem isWordChar_of_isDigit {c : Char} (h : c.isDigit = true) : isWordChar c = true := by
  have hne : ∀ d : Char, d.isDigit = false → c ≠ d := fun d hd he => by simp [← he, h] at hd
  simp [isWordChar, isBlank, hne ' ' (by decide), hne '\t' (by decide), hne '\r' (by decide), hne ';' (by decide),
    hne '\n' (by decide)]

theorem numberText_wordChars (n : Nat) : ∀ c ∈ numberText 10 1 n, isWordChar c = true := by
  rw [numberText_eq]
  exact fun c hc => isWordChar_of_isDigit (isDigit_of_mem_numberText hc)

theorem signedText_wordChars (v : Int) : ∀ c ∈ signedText v, isWordChar c = true := by
  unfold signedText
  split
  · exact List.forall_mem_cons.mpr ⟨by decide, numberText_wordChars _⟩
  · exact numberText_wordChars _

theorem numberText_ne_nil (n : Nat) : numberText 10 1 n ≠ [] := by
  rw [numberText_eq]
  exact Nat.toDigits_ne_nil

theorem signedText_ne_nil (v : Int) : signedText v ≠ [] := by
  unfold signedText
  split
  · simp
  · exact numberText_ne_nil _

theorem splitText_ne_nil (p : Char → Bool) (cs : List Char) : splitText p cs ≠ [] := by
  cases cs with
  | nil => simp [splitText]
  | cons c cs =>
    rw [splitText]
    split
    · simp
    · split <;> simp

/-- A text without a separator is one piece. -/
theorem splitText_of_none {p : Char → Bool} {cs : List Char} (h : ∀ c ∈ cs, p c = false) : splitText p cs = [cs] := by
  induction cs with
  | nil => rfl
  | cons c cs ih =>
    obtain ⟨hc, hcs⟩ := List.forall_mem_cons.mp h
    simp [splitText, ih hcs, hc]

/-- A text is split at its first separator. -/
theorem splitText_append {p : Char → Bool} {cs : List Char} (h : ∀ c ∈ cs, p c = false) {s : Char} (hs : p s = true)
    (rest : List Char) : splitText p (cs ++ s :: rest) = cs :: splitText p rest := by
  induction cs with
  | nil =>
    obtain ⟨piece, pieces, hrest⟩ := List.exists_cons_of_ne_nil (splitText_ne_nil p rest)
    simp [splitText, hrest, hs]
  | cons c cs ih =>
    obtain ⟨hc, hcs⟩ := List.forall_mem_cons.mp h
    simp [splitText, ih hcs, hc]

/-- A name and an operand with a blank between them are the line's two words (R90). -/
theorem lineWords_operand {name t : List Char} (hname : ∀ c ∈ name, isWordChar c = true)
    (ht : ∀ c ∈ t, isWordChar c = true) (hname0 : name ≠ []) (ht0 : t ≠ []) :
    lineWords (name ++ [' '] ++ t) = [name, t] := by
  have hblank : ∀ {cs : List Char}, (∀ c ∈ cs, isWordChar c = true) → ∀ c ∈ cs, isBlank c = false := fun hcs c hc => by
    have hw := hcs c hc
    simp only [isWordChar, Bool.and_eq_true, Bool.not_eq_true'] at hw
    exact hw.1.1
  have hcomment : (name ++ [' '] ++ t).takeWhile (· != ';') = name ++ ' ' :: t := by
    rw [List.append_assoc, List.singleton_append, List.takeWhile_eq_self_iff]
    intro c hc
    have hw : c = ' ' ∨ isWordChar c = true := by
      simp only [List.mem_append, List.mem_cons] at hc
      rcases hc with hc | hc | hc
      · exact .inr (hname c hc)
      · exact .inl hc
      · exact .inr (ht c hc)
    rcases hw with rfl | hw
    · decide
    · simp only [isWordChar, Bool.and_eq_true] at hw
      exact hw.1.2
  rw [lineWords, hcomment, splitText_append (hblank hname) (by decide), splitText_of_none (hblank ht)]
  simp [hname0, ht0]

/-- A line of an operand command runs its reader on the operand's value (R90, R91). -/
theorem assembleLine_operand {name t : List Char} {f : Int → Except AsmReason (List Instr)} {v : Int}
    (hwords : lineWords (name ++ [' '] ++ t) = [name, t]) (hcapital : name.map capital = name)
    (hplain : plainLine name = none) (hop : operandLine name = some f) (hread : readInteger t = some v) :
    assembleLine (name ++ [' '] ++ t) = f v := by
  simp only [assembleLine, hwords, hcapital, hplain, hop, hread]

/-- A program of one line is assembled as that line (R90). -/
theorem assemble_line {text : List Char} {is : List Instr} (hline : ∀ c ∈ text, (c == '\n') = false)
    (h : assembleLine text = .ok is) : assemble text = .ok (is.map encode) := by
  simp [assemble, splitText_of_none hline, assembleLines, h]

/-- An operand command's text assembles to the command (R90, R91). -/
theorem assemble_operand {name t : List Char} {f : Int → Except AsmReason (List Instr)} {v : Int} {i : Instr}
    (hname : name.all isWordChar = true ∧ name.map capital = name ∧ name ≠ [] ∧ plainLine name = none)
    (hop : operandLine name = some f) (ht : ∀ c ∈ t, isWordChar c = true) (ht0 : t ≠ [])
    (hread : readInteger t = some v) (hf : f v = .ok [i]) : assemble (name ++ [' '] ++ t) = .ok [encode i] := by
  obtain ⟨hall, hcapital, hname0, hplain⟩ := hname
  have hchars := List.all_eq_true.mp hall
  refine assemble_line (fun c hc => ?_) ((assembleLine_operand (lineWords_operand hchars ht hname0 ht0) hcapital hplain
    hop hread).trans hf)
  have hw : c = ' ' ∨ isWordChar c = true := by
    simp only [List.mem_append, List.mem_singleton] at hc
    rcases hc with (hc | hc) | hc
    · exact .inr (hchars c hc)
    · exact .inl hc
    · exact .inr (ht c hc)
  rcases hw with rfl | hw
  · decide
  · simp only [isWordChar, Bool.and_eq_true, bne_iff_ne, ne_eq] at hw
    simpa using hw.2

/-- An index that has an encoding is accepted (R84, R91). -/
theorem indexLine_of_encodable {command : Nat → Instr} {k : Nat} (h : indexEncodable k = true) :
    indexLine command k = .ok [command k] := by
  have hk := index_lt h
  rw [indexLine, if_pos (by omega)]
  rfl

/-- The text of a well-formed command assembles to its encoding (R91). -/
theorem assemble_commandText {i : Instr} (h : i.wellFormed = true) : assemble (commandText i) = .ok [encode i] := by
  cases i with
  | nop | clr | fmul10 | idiv10 | frun | irun => decide
  | setbit pos =>
    simp only [Instr.wellFormed, positionEncodable, decide_eq_true_eq] at h
    exact assemble_operand (name := ['S', 'E', 'T', 'B', 'I', 'T']) (by decide) rfl (signedText_wordChars pos)
      (signedText_ne_nil pos) (readInteger_signedText pos) (by simp [h])
  | rdw k =>
    exact assemble_operand (name := ['R', 'D', 'W']) (by decide) rfl (numberText_wordChars k) (numberText_ne_nil k)
      (readInteger_numberText k) (indexLine_of_encodable h)
  | rdfd k =>
    exact assemble_operand (name := ['R', 'D', 'F', 'D']) (by decide) rfl (numberText_wordChars k)
      (numberText_ne_nil k) (readInteger_numberText k) (indexLine_of_encodable h)
  | rdid k =>
    exact assemble_operand (name := ['R', 'D', 'I', 'D']) (by decide) rfl (numberText_wordChars k)
      (numberText_ne_nil k) (readInteger_numberText k) (indexLine_of_encodable h)

end Sys2Proof.Machine

open Sys2Proof Sys2Proof.Machine

/-- Settles O49: the text of a legal word is its command's, whose words the assembler reads back. -/
theorem assembleOfDisassemble : Obligations.AssembleOfDisassemble := by
  unfold Obligations.AssembleOfDisassemble
  intro w i hdec
  obtain ⟨hwf, henc⟩ := encode_of_decode hdec
  rw [disassemble, hdec, ← henc]
  exact assemble_commandText hwf

end
